-- ==== Sys2Proof/Word.lean ====
section
/-! DEFINITION. The widths of the block's values (R2, R15, R39) and the names its two status registers
take (R19, R20, R81). The binary codes of those names stand in Decode.lean and Machine/Flags.lean. -/

namespace Sys2Proof

/-- A command word, 16 bits (R39). -/
abbrev Word := BitVec 16

/-- A datum, and the width of the two output ports (R2, R18, R21). -/
abbrev Byte := BitVec 8

/-- The value of the 7-bit CRC register (R15, R16). -/
abbrev Crc := BitVec 7

/-- The values of the PHASE register, by the names R19 gives them. -/
inductive Phase where
  /-- After INIT, reset or LOAD with PH = FRESH: either protocol may start. -/
  | fresh
  /-- The single-byte protocol is running. -/
  | single
  /-- The buffer protocol is running and FINAL has not been performed. -/
  | buffer
  /-- FINAL has been performed. -/
  | final
deriving DecidableEq, Repr

/-- The causes a command can be rejected for (R81). -/
inductive Cause where
  /-- The command word is not well formed (R43). -/
  | illegal
  /-- A command of one protocol on a register in the other protocol's phase (R73). -/
  | mix
  /-- UPDS, UPDB or FINAL in phase FINAL (R73). -/
  | reuse
deriving DecidableEq, Repr

/-- The values of the ERRCAUSE register, by the names R20 gives them. -/
inductive ErrCause where
  /-- No command rejected since the last INIT or reset. -/
  | none
  /-- The first rejection was ILLEGAL. -/
  | illegal
  /-- The first rejection was MIX. -/
  | mix
  /-- The first rejection was REUSE. -/
  | reuse
deriving DecidableEq, Repr

end Sys2Proof
end

