-- ==== Sys2Proof/Config.lean ====
section
/-! DEFINITION. What an implementation fixes: the three latencies that R101 leaves OPEN. Every arithmetic
parameter is fixed by R2 and R5, so nothing else stands here. The block's own step (Machine/Step.lean)
reads none of these; only the clock-level view of Machine/Clocked.lean does. -/

namespace Sys2Proof

/-- LAT_UPD less one. It has no value in Lean, so no proof can rest on one (R101, log entry 9). -/
opaque Config.extraUpd : Nat

/-- LAT_FINAL less one (R101, log entry 9). -/
opaque Config.extraFinal : Nat

/-- LAT_SIMPLE less one (R101, log entry 9). -/
opaque Config.extraSimple : Nat

/-- LAT_UPD, for UPDS and UPDB: a whole number of cycles, at least 1 (R101). -/
def Config.latUpd : Nat := Config.extraUpd + 1

/-- LAT_FINAL, for FINAL: a whole number of cycles, at least 1 (R101). -/
def Config.latFinal : Nat := Config.extraFinal + 1

/-- LAT_SIMPLE, for INIT, LOAD and every rejected word: a whole number of cycles, at least 1 (R101). -/
def Config.latSimple : Nat := Config.extraSimple + 1

end Sys2Proof
end

