-- ==== Sys2Proof/Syntax.lean ====
section
/-! DEFINITION. The block's commands, one constructor for each row of spec/opcode_table.json. Each operand
has exactly the width of the field that carries it (R41, R42), so no term is ill formed: a value that
does not fit cannot be written down. -/

namespace Sys2Proof

/-- A decoded command (R46). -/
inductive Instr where
  /-- INIT: start a computation with the seed 0 (R52). -/
  | init
  /-- UPDS d: single-byte update by the datum d (R55). -/
  | upds (d : Byte)
  /-- UPDB d: buffer update by one message byte d (R63). -/
  | updb (d : Byte)
  /-- FINAL: the seven closing rounds of the buffer protocol (R66). -/
  | final
  /-- LOAD v, p: set CRC to the 7-bit value v and PHASE to p (R53). DATA[7] is no operand (R41). -/
  | load (v : Crc) (p : Phase)
deriving DecidableEq, Repr

end Sys2Proof
end

