-- ==== Sys2Proof/WellFormed.lean ====
section
/-! DEFINITION. The well-formed command words, written out as R43 writes them. The decoder does not call
this predicate: it checks field by field (Decode.lean), and that the two agree on every word is an
obligation. A term of Instr needs no check of its own (Syntax.lean). -/

namespace Sys2Proof

/-- R43's `WellFormed(w)`, disjunct by disjunct. -/
def wellFormedWord (w : Word) : Bool :=
  w.extractLsb 11 10 == 0b00#2 &&
    ((w.extractLsb 15 12 == 0x1#4 && w.extractLsb 9 8 == 0b00#2 && w.extractLsb 7 0 == 0x00#8) ||
     (w.extractLsb 15 12 == 0x2#4 && w.extractLsb 9 8 == 0b00#2) ||
     (w.extractLsb 15 12 == 0x3#4 && w.extractLsb 9 8 == 0b00#2) ||
     (w.extractLsb 15 12 == 0x4#4 && w.extractLsb 9 8 == 0b00#2 && w.extractLsb 7 0 == 0x00#8) ||
     w.extractLsb 15 12 == 0x5#4)

end Sys2Proof
end

