-- ==== Sys2Proof/Decode.lean ====
section
/-! DEFINITION. From command words to commands and back: the fields of R39, the total decoder of R46, which
refuses a word by the name of the first field that R43 forbids, and the encoder of R48. -/

namespace Sys2Proof

/-- OP, bits [15:12] (R39). -/
def opField (w : Word) : BitVec 4 := w.extractLsb' 12 4

/-- RSV, bits [11:10] (R39). -/
def rsvField (w : Word) : BitVec 2 := w.extractLsb' 10 2

/-- PH, bits [9:8] (R39). -/
def phField (w : Word) : BitVec 2 := w.extractLsb' 8 2

/-- DATA, bits [7:0] (R39). -/
def dataField (w : Word) : Byte := w.extractLsb' 0 8

/-- The 2-bit code of a phase (R19, R42). -/
def Phase.code : Phase → BitVec 2
  | .fresh => 0b00#2
  | .single => 0b01#2
  | .buffer => 0b10#2
  | .final => 0b11#2

/-- The phase a 2-bit code stands for. All four codes are assigned (R42). -/
def Phase.ofCode (c : BitVec 2) : Phase :=
  if c = 0b00#2 then .fresh
  else if c = 0b01#2 then .single
  else if c = 0b10#2 then .buffer
  else .final

/-- Why a word is no command. The block records ILLEGAL for each of them alike (R81); the names serve the
reader of a refusal only (DESIGN CHOICE, safe, log entry 7). -/
inductive IllegalWord where
  /-- OP is 0x0 or 0x6 to 0xF (R44). -/
  | unassignedOp
  /-- RSV is not 0b00 (R43). -/
  | reservedNotZero
  /-- PH is not 0b00 in a command other than LOAD (R42, R43). -/
  | phaseNotZero
  /-- DATA is not 0x00 in INIT or FINAL (R41, R43). -/
  | dataNotZero
deriving DecidableEq, Repr

/-- The command `i` if the word's RSV, its PH (unless PH is an operand) and its DATA (unless DATA is an
operand) are all zero (R43); else the name of the first field that is not. -/
def checkFields (w : Word) (phIsOperand dataIsOperand : Bool) (i : Instr) : Except IllegalWord Instr :=
  if rsvField w ≠ 0#2 then .error .reservedNotZero
  else if !phIsOperand ∧ phField w ≠ 0#2 then .error .phaseNotZero
  else if !dataIsOperand ∧ dataField w ≠ 0#8 then .error .dataNotZero
  else .ok i

/-- R46's `Decode(w)`: total, with OP first, since an unassigned OP is ILLEGAL with whatever other field
values (R44). LOAD takes DATA[6:0]: DATA[7] is ignored (R41). -/
def decode (w : Word) : Except IllegalWord Instr :=
  if opField w = 0x1#4 then checkFields w false false .init
  else if opField w = 0x2#4 then checkFields w false true (.upds (dataField w))
  else if opField w = 0x3#4 then checkFields w false true (.updb (dataField w))
  else if opField w = 0x4#4 then checkFields w false false .final
  else if opField w = 0x5#4 then
    checkFields w true true (.load ((dataField w).setWidth 7) (Phase.ofCode (phField w)))
  else .error .unassignedOp

/-- The word of a command (R48). Of the two words of a LOAD this is the one with DATA[7] = 0 (DEDUCED, safe,
log entry 8). -/
def encode : Instr → Word
  | .init => 0x1000#16
  | .upds d => 0x2000#16 ||| d.setWidth 16
  | .updb d => 0x3000#16 ||| d.setWidth 16
  | .final => 0x4000#16
  | .load v p => 0x5000#16 ||| (p.code.setWidth 16 <<< 8) ||| v.setWidth 16

/-- The command word whose bits the opcode table numbers as the lowest `nbits` bits of `w` (log entry 19). -/
def tableWord (nbits w : Nat) : Word := BitVec.ofNat 16 (w % 2 ^ nbits)

/-- What the decoder reads from a word given in the opcode table's bit numbering. A command is one word, taken
as a 16-bit port value, so no byte order enters (R31, R39). -/
def decodeTableWord (nbits w : Nat) : Option Instr :=
  match decode (tableWord nbits w) with
  | .ok i => some i
  | .error _ => none

end Sys2Proof
end

