-- ==== Sys2Proof/Machine/State.lean ====
section
/-! DEFINITION. The state of the block: the three registers of R15, R19 and R20, and beside them the host's side
of the command port (R77) and the observation of a run (R78, R89). The spec gives the block no memory, no
program counter and no other register (R23 to R26, R28). -/

namespace Sys2Proof.Machine

/-- What the host does at the block's ports, one entry for each thing the block then does (R77). -/
inductive HostAction where
  /-- The host offers the word `w` and the block accepts and performs it (R75, R95). -/
  | command (w : Word)
  /-- The host asserts rst while no command is in progress (R92, R93). -/
  | reset
  /-- The host asserts rst after the block has accepted `w` and before it has performed it: the command is
  abandoned with none of its writes made (R93). -/
  | resetDuring (w : Word)
deriving DecidableEq, Repr

/-- One rejected command of a run (R78, R89). -/
structure Rejection where
  /-- Which accepted word of the run it was, counting from 1. -/
  position : Nat
  /-- The rejected word. The hardware does not keep it (R81); the observation does (R78). -/
  word : Word
  /-- Why it was rejected. -/
  cause : Cause
deriving DecidableEq, Repr

/-- The state of the machine between two accepted commands. -/
structure State where
  /-- CRC, the 7-bit CRC register (R15). -/
  crc : Crc
  /-- PHASE (R19). -/
  phase : Phase
  /-- ERRCAUSE (R20). -/
  errcause : ErrCause
  /-- The MODEL's own: what the host will do next at the ports, first entry first (R25, R77, log entry 2). -/
  port : List HostAction
  /-- The MODEL's own: how many words the block has accepted (R25, log entry 4). -/
  position : Nat
  /-- The MODEL's own: the rejected commands of the run, oldest first, which nothing removes (R78, R89,
  log entry 5). -/
  rejected : List Rejection
deriving DecidableEq, Repr

/-- The faults that stop the machine. There are none: the block's step "never faults by itself", and a command
it will not perform is rejected, with the block going on (R75, R83). Nothing raises a value of this type. -/
inductive Fault where
deriving DecidableEq, Repr

/-- What the model has no move for. Nothing that the block does at its command port is refused. -/
inductive Refusal where
  /-- An instruction without a meaning would be refused so by its arm of exec. Every instruction of this model
  has a meaning, so nothing raises it. Safe. -/
  | notModelled (mnemonic : String)
  /-- Raised by the clock-level view (Machine/Clocked.lean) for a host that changes cmd or drops cmd_valid before
  the command is accepted: "The model gives such a host no move" (R96, U6). UNSAFE, log entry 10. -/
  | commandNotHeld
  /-- Raised by the host's call `bufferUpdate` (Machine/HostCalls.lean) with a length greater than its buffer: the host
  "has no move" (R29, U1). UNSAFE, log entry 13. -/
  | hostReadsPastBuffer
deriving DecidableEq, Repr

/-- The machine right after reset (R92), with nothing offered at the port and an empty observation (DESIGN
CHOICE, log entry 2 for the three fields that are the model's own). -/
def State.reset : State where
  crc := 0x00#7
  phase := .fresh
  errcause := .none
  port := []
  position := 0
  rejected := []

end Sys2Proof.Machine
end

