-- ==== Sys2Proof/Machine/Operands.lean ====
section
/-! DEFINITION. The bits a command feeds into the register, in the order it feeds them (R6, R31). -/

namespace Sys2Proof.Machine

/-- The eight bits of a datum, most significant first: d[7], d[6], ..., d[0] (R31, R55, R63). -/
def datumBits (d : Byte) : List Bool :=
  [d.getLsbD 7, d.getLsbD 6, d.getLsbD 5, d.getLsbD 4, d.getLsbD 3, d.getLsbD 2, d.getLsbD 1, d.getLsbD 0]

/-- The seven zero bits that FINAL feeds in (R33, R66). -/
def finalBits : List Bool := [false, false, false, false, false, false, false]

end Sys2Proof.Machine
end

