-- ==== Sys2Proof/Machine/Flags.lean ====
section
/-! DEFINITION. The status registers: their codes, the three output ports that show the state, and the legality
check that reads PHASE. -/

namespace Sys2Proof.Machine

/-- The 2-bit code of ERRCAUSE (R20, R81). -/
def errCode : ErrCause → BitVec 2
  | .none => 0b00#2
  | .illegal => 0b01#2
  | .mix => 0b10#2
  | .reuse => 0b11#2

/-- What ERRCAUSE holds once a rejection with this cause has been recorded (R81). -/
def recorded : Cause → ErrCause
  | .illegal => .illegal
  | .mix => .mix
  | .reuse => .reuse

/-- ERR: 1 while ERRCAUSE is not NONE (R21, R22). -/
def errBit (e : ErrCause) : Bool := decide (e ≠ .none)

/-- The three outputs, as the host may sample them while cmd_ready = 1 (R18, R21, R22, R97). -/
structure Outputs where
  /-- crc_out[7:0]. -/
  crcOut : Byte
  /-- status_out[7:0]. -/
  statusOut : Byte
  /-- err_out. -/
  errOut : Bool
deriving DecidableEq, Repr

/-- crc_out = (1'b0, CRC[6:0]) (R18). -/
def crcOut (s : State) : Byte := 0#1 ++ s.crc

/-- status_out = (3'b000, ERR, ERRCAUSE, PHASE) (R21). -/
def statusOut (s : State) : Byte :=
  0#3 ++ (BitVec.ofBool (errBit s.errcause) ++ (errCode s.errcause ++ s.phase.code))

/-- err_out = status_out[4] (R22). -/
def errOut (s : State) : Bool := (statusOut s).getLsbD 4

/-- Reading the outputs: no side effect, so a plain function of the state (R18, R21, R33). -/
def outputs (s : State) : Outputs := ⟨crcOut s, statusOut s, errOut s⟩

/-- R73's `Check(PHASE, c)`: no cause where the table says OK. -/
def check : Phase → Instr → Option Cause
  | _, .init => none
  | _, .load _ _ => none
  | .fresh, .upds _ => none
  | .single, .upds _ => none
  | .buffer, .upds _ => some .mix
  | .final, .upds _ => some .reuse
  | .fresh, .updb _ => none
  | .single, .updb _ => some .mix
  | .buffer, .updb _ => none
  | .final, .updb _ => some .reuse
  | .fresh, .final => none
  | .single, .final => some .mix
  | .buffer, .final => none
  | .final, .final => some .reuse

end Sys2Proof.Machine
end

