-- ==== Sys2Proof/Machine/Ops.lean ====
section
/-! DEFINITION. The shared operations: the two one-bit steps and what is built from them, the writes to the
registers, rejecting a command (this block's one kind of exception, R83), reset, and taking the host's next
action from the port. -/

namespace Sys2Proof.Machine

/-- The generator polynomial in normal form, the one constant that enters a rule (R2, R3). -/
def poly : Crc := 0x37#7

/-- Step S: one bit of the single-byte update. The input bit enters through the feedback alone (R54). -/
def stepS (r : Crc) (b : Bool) : Crc :=
  let f := r.getLsbD 6 ^^ b
  let s := r <<< 1
  if f then s ^^^ poly else s

/-- Step B: one bit of the buffer update and of FINAL. The input bit enters at the low end (R61). -/
def stepB (r : Crc) (b : Bool) : Crc :=
  let f := r.getLsbD 6
  let s := (r <<< 1) ||| (BitVec.ofBool b).setWidth 7
  if f then s ^^^ poly else s

/-- The register after the eight steps of UPDS (R55). -/
def updsByte (r : Crc) (d : Byte) : Crc := (datumBits d).foldl stepS r

/-- The register after the eight steps of UPDB (R63). -/
def updbByte (r : Crc) (d : Byte) : Crc := (datumBits d).foldl stepB r

/-- The register after the seven rounds of FINAL (R66). -/
def finalRounds (r : Crc) : Crc := finalBits.foldl stepB r

/-- A performed command's writes to CRC and PHASE. ERRCAUSE is not written (R53, R55, R63, R66). -/
def writeResult (r : Crc) (p : Phase) (s : State) : State := { s with crc := r, phase := p }

/-- ERRCAUSE back to NONE. INIT and reset do this and nothing else does (R84): there is no return from an
exception (R87, R88). -/
def clearError (s : State) : State := { s with errcause := .none }

/-- TAKING AN EXCEPTION on this block: `Reject(s, cause)` of R83. ERRCAUSE takes the cause only if it holds NONE
(R84), CRC and PHASE stay, and the run's observation gains the rejected command (R78, R89). -/
def reject (w : Word) (cause : Cause) (s : State) : State :=
  { s with
    errcause := if s.errcause = .none then recorded cause else s.errcause
    rejected := s.rejected ++ [⟨s.position, w, cause⟩] }

/-- The part of R75 that every command shares: perform `body` if the check of R73 says OK, else reject. A command
that the check can reject has one word only, so `encode i` is the word that was accepted (R46). -/
def performIfLegal (i : Instr) (body : State → State) (s : State) :
    Host.Outcome State Fault Refusal :=
  match check s.phase i with
  | none => .next (body s)
  | some cause => .next (reject (encode i) cause s)

/-- Reset: every register takes the value INIT gives (R92). The run's observation and the port stay (R89, log
entries 5 and 6). -/
def resetBlock (s : State) : State := clearError (writeResult 0x00#7 .fresh s)

/-- The word `w` leaves the port: "every command advances the stream by exactly one word" (R25). -/
def takeWord (rest : List HostAction) (s : State) : State :=
  { s with port := rest, position := s.position + 1 }

/-- The host's reset leaves the port; no word does (R77). -/
def takeReset (rest : List HostAction) (s : State) : State := { s with port := rest }

/-- What the block does next. -/
inductive Move where
  /-- Nothing: no command is offered, and the block is idle (R91). -/
  | idle
  /-- Reset, in this state. -/
  | reset (s : State)
  /-- Perform this word, in this state. -/
  | word (w : Word) (s : State)
deriving DecidableEq, Repr

/-- The next move, from the first entry of the port (R11, R77, R95). A word whose command is abandoned by reset has been
accepted, so it counts as one word of the stream (R93). -/
def nextMove (s : State) : Move :=
  match s.port with
  | [] => .idle
  | .command w :: rest => .word w (takeWord rest s)
  | .reset :: rest => .reset (takeReset rest s)
  | .resetDuring _ :: rest => .reset (takeWord rest s)

end Sys2Proof.Machine
end

