-- ==== Sys2Proof/Machine/Buffer.lean ====
section
/-! DEFINITION. The buffer update and finalize, UPDB and FINAL (spec/42_buffer_update.md). -/

namespace Sys2Proof.Machine

/-- UPDB: eight steps B from CRC, d[7] first, and PHASE to BUFFER (R63). -/
def execUpdb (d : Byte) (s : State) : Host.Outcome State Fault Refusal :=
  performIfLegal (.updb d) (fun s => writeResult (updbByte s.crc d) .buffer s) s

/-- FINAL: seven steps B with a zero input bit, and PHASE to FINAL (R66). -/
def execFinal (s : State) : Host.Outcome State Fault Refusal :=
  performIfLegal .final (fun s => writeResult (finalRounds s.crc) .final s) s

end Sys2Proof.Machine
end

