-- ==== Sys2Proof/Machine/RegisterCommands.lean ====
section
/-! DEFINITION. The register-setting commands, INIT and LOAD (spec/40_init_load.md). -/

namespace Sys2Proof.Machine

/-- INIT: CRC to the seed 0, PHASE to FRESH, ERRCAUSE to NONE (R4, R52). -/
def execInit (s : State) : Host.Outcome State Fault Refusal :=
  performIfLegal .init (fun s => clearError (writeResult 0x00#7 .fresh s)) s

/-- LOAD: CRC to the value, PHASE to the phase, ERRCAUSE as it was (R53). -/
def execLoad (v : Crc) (p : Phase) (s : State) : Host.Outcome State Fault Refusal :=
  performIfLegal (.load v p) (writeResult v p) s

end Sys2Proof.Machine
end

