-- ==== Sys2Proof/Machine/SingleByte.lean ====
section
/-! DEFINITION. The single-byte update, UPDS (spec/41_single_byte_update.md). -/

namespace Sys2Proof.Machine

/-- UPDS: eight steps S from CRC, d[7] first, and PHASE to SINGLE (R55). -/
def execUpds (d : Byte) (s : State) : Host.Outcome State Fault Refusal :=
  performIfLegal (.upds d) (fun s => writeResult (updsByte s.crc d) .single s) s

end Sys2Proof.Machine
end

