-- ==== Sys2Proof/Machine/Dispatch.lean ====
section
/-! DEFINITION. One arm for each command: the `case c of` of R75. -/

namespace Sys2Proof.Machine

/-- Performing or rejecting one decoded command (R75). -/
def exec (i : Instr) (s : State) : Host.Outcome State Fault Refusal :=
  match i with
  | .init => Sys2Proof.Machine.execInit s
  | .upds d => Sys2Proof.Machine.execUpds d s
  | .updb d => Sys2Proof.Machine.execUpdb d s
  | .final => Sys2Proof.Machine.execFinal s
  | .load v p => Sys2Proof.Machine.execLoad v p s

end Sys2Proof.Machine
end

