-- ==== Sys2Proof/Machine/Accept.lean ====
section
/-! DEFINITION. What the block does with one accepted command word (R75). -/

namespace Sys2Proof.Machine

/-- R75's `Step(s, w)`: a word that is no command is rejected with ILLEGAL before PHASE is looked at (R85); any other
word is performed or rejected by its command. -/
def acceptWord (w : Word) (s : State) : Host.Outcome State Fault Refusal :=
  match decode w with
  | .error _ => .next (reject w .illegal s)
  | .ok i => exec i s

/-- The cause for which the block would reject the word now, if it would (R82, R85). -/
def verdict (w : Word) (s : State) : Option Cause :=
  match decode w with
  | .error _ => some .illegal
  | .ok i => check s.phase i

end Sys2Proof.Machine
end

