-- ==== Sys2Proof/Machine/Step.lean ====
section
/-! DEFINITION. One step of the machine: the block takes the host's next action from its port (R11, R75, R77). -/

namespace Sys2Proof.Machine

/-- One step. With nothing at the port the block is idle and "all state survives idleness" (R91): the state stays as it
is (DEDUCED, log entry 3). -/
def step (s : State) : Host.Outcome State Fault Refusal :=
  match nextMove s with
  | .idle => .next s
  | .reset s' => .next (resetBlock s')
  | .word w s' => acceptWord w s'

/-- The host offers the given command word, before anything else it was going to do (log entry 2). -/
def State.withFetchWord (s : State) (nbits w : Nat) : State :=
  { s with port := .command (tableWord nbits w) :: s.port }

end Sys2Proof.Machine
end

