-- ==== Sys2Proof/Machine/Run.lean ====
section
/-! DEFINITION. Runs of the block and what is observed of them (R78). -/

namespace Sys2Proof.Machine

/-- The state in which the host is about to do `acts`, in order, and nothing after them (log entry 2). -/
def State.offering (s : State) (acts : List HostAction) : State := { s with port := acts }

/-- A run of accepted command words (R78): one step for each, from a state with those words at the port. -/
def runWords (ws : List Word) (s : State) : Host.Outcome State Fault Refusal :=
  Sys2Proof.core.run ws.length (s.offering (ws.map .command))

/-- The observation of a run: the registers at its end and the commands that were rejected in it (R78). -/
structure Observation where
  /-- CRC. -/
  crc : Crc
  /-- PHASE. -/
  phase : Phase
  /-- ERRCAUSE. -/
  errcause : ErrCause
  /-- The rejected commands, oldest first. -/
  rejected : List Rejection
deriving DecidableEq, Repr

/-- What is observed of a run that ends in this state (R78). -/
def observe (s : State) : Observation := ⟨s.crc, s.phase, s.errcause, s.rejected⟩

end Sys2Proof.Machine
end

