-- ==== Sys2Proof/Machine/HostCalls.lean ====
section
/-! DEFINITION. The host's side of the interface (R12, R29, R77): which command words stand for each operation of the
source. -/

namespace Sys2Proof.Machine

/-- `LOAD v, p` as the host writes it, with the whole 8-bit container in DATA (R48). -/
def loadWord (v : Byte) (p : Phase) : Word :=
  0x5000#16 ||| (p.code.setWidth 16 <<< 8) ||| v.setWidth 16

/-- `init()` (R12). -/
def callInit : List Word := [encode .init]

/-- `singleByteUpdate(crc, datum)` (R12), whose LOAD names the phase `p`: R12 lets it be SINGLE or FRESH. The container's top
bit goes along and is ignored by the block (R41). -/
def callSingleByteUpdate (p : Phase) (crc datum : Byte) : List Word := [loadWord crc p, encode (.upds datum)]

/-- `bufferUpdate(crc, data, length)` (R12). The host's buffer is its own, and a host that would read past it "has no move"
(R29, U1, log entry 13). R12 lets the LOAD's phase `p` be BUFFER or FRESH. -/
def callBufferUpdate (p : Phase) (crc : Byte) (data : List Byte) (length : Nat) : Host.Outcome (List Word) Fault Refusal :=
  if data.length < length then .refused .hostReadsPastBuffer
  else .next (loadWord crc p :: (data.take length).map (fun b => encode (.updb b)))

/-- `finalize(crc)` (R12). -/
def callFinalize (crc : Byte) : List Word := [loadWord crc .buffer, encode .final]

end Sys2Proof.Machine
end

