-- ==== Sys2Proof/Machine/Assembler.lean ====
section
/-! DEFINITION. The assembler syntax and the pseudo-instructions (R48, R49): from a line of text to command words. The
text is a list of characters. What R48 leaves open is in log entry 14. -/

namespace Sys2Proof.Machine

/-- One line of assembler, its numbers not yet checked (R48, R49). -/
inductive AsmLine where
  /-- `INIT` -/
  | init
  /-- `UPDS byte` -/
  | upds (b : Nat)
  /-- `UPDB byte` -/
  | updb (b : Nat)
  /-- `FINAL` -/
  | final
  /-- `LOAD byte, phase` -/
  | load (b p : Nat)
  /-- `CRCS "s"` -/
  | crcs (s : List Nat)
  /-- `CRCB "s"` -/
  | crcb (s : List Nat)
  /-- `BUFUPD "s"` -/
  | bufupd (s : List Nat)
  /-- `SBU c, d` -/
  | sbu (c d : Nat)
  /-- `FIN c` -/
  | fin (c : Nat)
  /-- A line with no command on it. -/
  | blank
deriving DecidableEq, Repr

/-- A byte operand is 0 to 255 (R48). -/
def isByte (b : Nat) : Bool := b ≤ 255

/-- The operands an assembler accepts: "An assembler refuses a byte outside 0..255 or an unknown phase" (R48). -/
def AsmLine.wellFormed : AsmLine → Bool
  | .init => true
  | .upds b => isByte b
  | .updb b => isByte b
  | .final => true
  | .load b p => isByte b && decide (p ≤ 3)
  | .crcs s => s.all isByte
  | .crcb s => s.all isByte
  | .bufupd s => s.all isByte
  | .sbu c d => isByte c && isByte d
  | .fin c => isByte c
  | .blank => true

/-- `UPDS d` as a word: 0x2000 | d (R48). -/
def asmUpds (d : Nat) : Word := 0x2000#16 ||| BitVec.ofNat 16 d

/-- `UPDB d` as a word: 0x3000 | d (R48). -/
def asmUpdb (d : Nat) : Word := 0x3000#16 ||| BitVec.ofNat 16 d

/-- `LOAD v, p` as a word: 0x5000 | (p << 8) | v (R48). -/
def asmLoad (v p : Nat) : Word := 0x5000#16 ||| BitVec.ofNat 16 (p <<< 8) ||| BitVec.ofNat 16 v

/-- The words of a line whose operands are well formed: the encodings of R48 and the expansions of R49. -/
def AsmLine.words : AsmLine → List Word
  | .init => [0x1000#16]
  | .upds d => [asmUpds d]
  | .updb d => [asmUpdb d]
  | .final => [0x4000#16]
  | .load v p => [asmLoad v p]
  | .crcs s => 0x1000#16 :: s.map asmUpds
  | .crcb s => 0x1000#16 :: (s.map asmUpdb ++ [0x4000#16])
  | .bufupd s => s.map asmUpdb
  | .sbu c d => [asmLoad c 0, asmUpds d]
  | .fin c => [asmLoad c 2, 0x4000#16]
  | .blank => []

/-- The assembler on one line: its words, or nothing where it refuses an operand (R48). -/
def assemble (l : AsmLine) : Option (List Word) := if l.wellFormed then some l.words else none

/-- The pieces of a line of text. -/
inductive Token where
  /-- A mnemonic, a phase name or a number. -/
  | word (cs : List Char)
  /-- A character literal, by its character code. -/
  | chr (n : Nat)
  /-- A string literal. -/
  | str (cs : List Char)
  /-- A comma. -/
  | comma
deriving DecidableEq, Repr

/-- Where the reader of a line stands. The letters read so far are held last first. -/
inductive ReadMode where
  /-- Between tokens. -/
  | gap
  /-- Inside a word. -/
  | inWord (cs : List Char)
  /-- After the opening quote of a character literal. -/
  | openChr
  /-- After the character of a character literal. -/
  | closeChr (c : Char)
  /-- Inside a string literal. -/
  | inStr (cs : List Char)
deriving DecidableEq, Repr

/-- The token that ends where a word ends, if a word was being read. -/
def endWord : ReadMode → List Token
  | .inWord cs => [.word cs.reverse]
  | _ => []

/-- The tokens of a line, or of the text inside a string literal; nothing for a literal that does not close. `;` outside a
literal starts a comment on a line (R48), and `comments` is false inside a string, where it is no token. -/
def tokens (comments : Bool) : ReadMode → List Char → Option (List Token)
  | .gap, [] => some []
  | .inWord cs, [] => some [.word cs.reverse]
  | .openChr, [] => none
  | .closeChr _, [] => none
  | .inStr _, [] => none
  | .openChr, c :: rest => tokens comments (.closeChr c) rest
  | .closeChr c, q :: rest =>
    if q = '\'' then (tokens comments .gap rest).map (.chr c.toNat :: ·) else none
  | .inStr cs, c :: rest =>
    if c = '"' then (tokens comments .gap rest).map (.str cs.reverse :: ·) else tokens comments (.inStr (c :: cs)) rest
  | m, c :: rest =>
    if c = ';' then (if comments then some (endWord m) else none)
    else if c = ' ' ∨ c = '\t' then (tokens comments .gap rest).map (endWord m ++ ·)
    else if c = ',' then (tokens comments .gap rest).map (endWord m ++ .comma :: ·)
    else if c = '\'' then (tokens comments .openChr rest).map (endWord m ++ ·)
    else if c = '"' then (tokens comments (.inStr []) rest).map (endWord m ++ ·)
    else match m with
      | .inWord cs => tokens comments (.inWord (c :: cs)) rest
      | _ => tokens comments (.inWord [c]) rest

/-- A letter in upper case: "mnemonics and phase names are case-insensitive" (R48). -/
def upper (c : Char) : Nat := if 97 ≤ c.toNat ∧ c.toNat ≤ 122 then c.toNat - 32 else c.toNat

/-- Whether the letters read spell the name, whatever their case. -/
def spells (name cs : List Char) : Bool := cs.map upper == name.map upper

/-- The value of a digit in a base up to 16. -/
def digit (base : Nat) (c : Char) : Option Nat :=
  let u := upper c
  let v := if 48 ≤ u ∧ u ≤ 57 then u - 48 else if 65 ≤ u ∧ u ≤ 70 then u - 55 else 16
  if v < base then some v else none

/-- The number written by the digits, after those already read. -/
def digits (base : Nat) (acc : Nat) : List Char → Option Nat
  | [] => some acc
  | c :: rest =>
    match digit base c with
    | some d => digits base (acc * base + d) rest
    | none => none

/-- A number, decimal or `0x` hexadecimal (R48). -/
def number : List Char → Option Nat
  | [] => none
  | ['0', 'x'] => none
  | '0' :: 'x' :: rest => digits 16 0 rest
  | cs => digits 10 0 cs

/-- A byte operand: a number or a character literal, "its ASCII code" (R48). Its range is checked by `assemble`. -/
def readByte : Token → Option Nat
  | .word cs => number cs
  | .chr n => if n < 128 then some n else none
  | .str _ => none
  | .comma => none

/-- A phase operand: a phase name or its number (R48). -/
def readPhase : Token → Option Nat
  | .word cs =>
    if spells ['F', 'R', 'E', 'S', 'H'] cs then some 0
    else if spells ['S', 'I', 'N', 'G', 'L', 'E'] cs then some 1
    else if spells ['B', 'U', 'F', 'F', 'E', 'R'] cs then some 2
    else if spells ['F', 'I', 'N', 'A', 'L'] cs then some 3
    else number cs
  | .chr _ => none
  | .str _ => none
  | .comma => none

/-- A list of bytes separated by commas (R49). -/
def readBytes : List Token → Option (List Nat)
  | [] => none
  | [t] => (readByte t).map ([·])
  | t :: .comma :: rest =>
    match readByte t, readBytes rest with
    | some b, some bs => some (b :: bs)
    | _, _ => none
  | _ :: _ :: _ => none

/-- The bytes of a string literal whose text is itself "a list of `<byte>` separated by commas" (R49), as P4 of
95_test_vectors.md writes `CRCB "0x01, 0x02"`: two or more numbers or character literals, or one hexadecimal number. When a quoted
text is a list is the model's choice (log entry 14), and so is that a number above 255 leaves it one, which `assemble` then
refuses. -/
def quotedBytes (cs : List Char) : Option (List Nat) :=
  match tokens false .gap cs with
  | some [.word ('0' :: 'x' :: ds)] => readBytes [.word ('0' :: 'x' :: ds)]
  | some (t :: .comma :: rest) => readBytes (t :: .comma :: rest)
  | _ => none

/-- The bytes of a string literal: the list of bytes it holds, else its ASCII characters (R49). -/
def quotedString (cs : List Char) : Option (List Nat) :=
  match quotedBytes cs with
  | some bs => some bs
  | none => if cs.all (fun c => decide (c.toNat < 128)) then some (cs.map Char.toNat) else none

/-- The operand `"s"` of a pseudo-instruction: a string literal, or a list of bytes without quotes (R49, log entry 14). -/
def readString : List Token → Option (List Nat)
  | [.str cs] => quotedString cs
  | ts => readBytes ts

/-- The line the tokens spell (R48, R49). -/
def readLine : List Token → Option AsmLine
  | [] => some .blank
  | .word name :: args =>
    if spells ['I', 'N', 'I', 'T'] name then (if args = [] then some .init else none)
    else if spells ['F', 'I', 'N', 'A', 'L'] name then (if args = [] then some .final else none)
    else if spells ['U', 'P', 'D', 'S'] name then
      match args with
      | [t] => (readByte t).map .upds
      | _ => none
    else if spells ['U', 'P', 'D', 'B'] name then
      match args with
      | [t] => (readByte t).map .updb
      | _ => none
    else if spells ['L', 'O', 'A', 'D'] name then
      match args with
      | [t, .comma, u] =>
        match readByte t, readPhase u with
        | some b, some p => some (.load b p)
        | _, _ => none
      | _ => none
    else if spells ['C', 'R', 'C', 'S'] name then (readString args).map .crcs
    else if spells ['C', 'R', 'C', 'B'] name then (readString args).map .crcb
    else if spells ['B', 'U', 'F', 'U', 'P', 'D'] name then (readString args).map .bufupd
    else if spells ['S', 'B', 'U'] name then
      match args with
      | [t, .comma, u] =>
        match readByte t, readByte u with
        | some c, some d => some (.sbu c d)
        | _, _ => none
      | _ => none
    else if spells ['F', 'I', 'N'] name then
      match args with
      | [t] => (readByte t).map .fin
      | _ => none
    else none
  | _ :: _ => none

/-- The assembler on one line of text: its words, or nothing where it refuses the line (R48, R49). -/
def assembleText (cs : List Char) : Option (List Word) :=
  match tokens true .gap cs with
  | none => none
  | some ts =>
    match readLine ts with
    | none => none
    | some l => assemble l

end Sys2Proof.Machine
end

