-- ==== Sys2Proof/Machine/BitSerial.lean ====
section
/-! DEFINITION. The bit-serial reference implementation that R100 describes "for information": one step S or step B in each
clock. The block's step does not use it; that it computes the same values is an obligation. -/

namespace Sys2Proof.Machine

/-- Which one-bit step the command in progress performs (R100). -/
inductive BitStep where
  /-- Step S, for UPDS (R54). -/
  | s
  /-- Step B, for UPDB and FINAL (R61). -/
  | b
deriving DecidableEq, Repr

/-- The internal sequencing state of the bit-serial divider (R23, R100). -/
structure Divider where
  /-- The partial register. -/
  reg : Crc
  /-- The 3-bit step counter: which bit of the datum the next clock consumes (DESIGN CHOICE, log entry 15). -/
  count : BitVec 3
  /-- The copy of the datum, zero for FINAL. -/
  datum : Byte
  /-- The command in progress, as far as the steps depend on it. -/
  kind : BitStep
  /-- Steps remain to be done. -/
  busy : Bool
deriving DecidableEq, Repr

/-- The divider when it takes up UPDS d. -/
def Divider.startUpds (r : Crc) (d : Byte) : Divider := ⟨r, 7, d, .s, true⟩

/-- The divider when it takes up UPDB d. -/
def Divider.startUpdb (r : Crc) (d : Byte) : Divider := ⟨r, 7, d, .b, true⟩

/-- The divider when it takes up FINAL: seven steps, so the counter starts at 6. -/
def Divider.startFinal (r : Crc) : Divider := ⟨r, 6, 0, .b, true⟩

/-- One clock (R100). -/
def Divider.clock (v : Divider) : Divider :=
  if v.busy then
    let bit := v.datum.getLsbD v.count.toNat
    let reg := match v.kind with
      | .s => stepS v.reg bit
      | .b => stepB v.reg bit
    { v with reg := reg, count := v.count - 1, busy := decide (v.count ≠ 0) }
  else v

/-- `n` clocks. -/
def Divider.clocks : Nat → Divider → Divider
  | 0, v => v
  | n + 1, v => clocks n v.clock

end Sys2Proof.Machine
end

