-- ==== Sys2Proof/Machine/SourceAlgorithm.lean ====
section
/-! DEFINITION. The source's software algorithms, as R56, R62 and R66 quote them, with the working width W that the
source leaves unnamed as an argument. The block's meanings do not use them: R12, R56 and R62 compare the two. -/

namespace Sys2Proof.Machine

/-- One round of `singleByteUpdate` at working width `W` (R56). -/
def sourceRoundS (W datum : Nat) (crc i : Nat) : Nat :=
  let bit := ((crc >>> 6) &&& 1) ^^^ ((datum >>> (7 - i)) &&& 1)
  let shifted := (crc <<< 1) % 2 ^ W
  if bit = 1 then shifted ^^^ 0x37 else shifted

/-- The source's `singleByteUpdate(crc, datum)` at working width `W` (R56). -/
def sourceSBU (W crc datum : Nat) : Nat :=
  [0, 1, 2, 3, 4, 5, 6, 7].foldl (sourceRoundS W datum) crc &&& 0x7F

/-- One round of `bufferUpdate` and of `finalize` at working width `W`, with the next input bit (R61, R62). -/
def sourceRoundB (W : Nat) (crc input : Nat) : Nat :=
  let bit := (crc >>> 6) &&& 1
  let shifted := ((crc <<< 1) ||| input) % 2 ^ W
  if bit = 1 then shifted ^^^ 0x37 else shifted

/-- One byte of the source's `bufferUpdate` at working width `W` (R62). -/
def sourceBUByte (W crc byte : Nat) : Nat :=
  [0, 1, 2, 3, 4, 5, 6, 7].foldl (fun crc i => sourceRoundB W crc ((byte >>> (7 - i)) &&& 1)) crc &&& 0x7F

/-- The source's `bufferUpdate(crc, data, length)` over its whole buffer, first byte first (R30). -/
def sourceBufferUpdate (W crc : Nat) (data : List Byte) : Nat :=
  data.foldl (fun crc b => sourceBUByte W crc b.toNat) crc

/-- The source's `finalize(crc)` at working width `W`: seven rounds with a zero input bit, then the mask (R66). -/
def sourceFinalize (W crc : Nat) : Nat :=
  [0, 0, 0, 0, 0, 0, 0].foldl (sourceRoundB W) crc &&& 0x7F

end Sys2Proof.Machine
end

