-- ==== Sys2Proof/Machine/Clocked.lean ====
section
/-! DEFINITION. The block at its pins, one tick for each rising edge of clk: reset (R93), the valid/ready handshake (R95),
the host's duty to hold what it offers (R96), the latencies (R101) and when the outputs are defined (R97, R99). The
block's own step has no clock (R101), and this view is built on it: what an accepted command does is always one
`step`. -/

namespace Sys2Proof.Machine

/-- The input pins at one rising edge of clk (R27). -/
structure Pins where
  /-- rst. -/
  rst : Bool
  /-- cmd_valid. -/
  valid : Bool
  /-- cmd. -/
  cmd : Word
deriving DecidableEq, Repr

/-- A command that has been accepted and not yet performed (R23, R95). -/
structure InFlight where
  /-- The accepted word. -/
  word : Word
  /-- How many cycles remain until its writes become visible. -/
  remaining : Nat
deriving DecidableEq, Repr

/-- The block between two rising edges. -/
structure Clocked where
  /-- The architectural state and the observation; its port is empty, since here the pins are the port. -/
  core : State
  /-- cmd_ready. -/
  ready : Bool
  /-- The command in progress. -/
  inFlight : Option InFlight
  /-- The HOST's duty, not the block's state: the word it is offering and must hold (R96). -/
  offered : Option Word
deriving DecidableEq, Repr

/-- The block after an edge with rst = 1: the values of R92, and cmd_ready = 0 (R93). -/
def Clocked.reset : Clocked := ⟨State.reset, false, none, none⟩

/-- LAT(command), for the word in the state it is accepted in (R95, R101). -/
def latency (w : Word) (s : State) : Nat :=
  match verdict w s with
  | some _ => Config.latSimple
  | none =>
    match decode w with
    | .ok (.upds _) => Config.latUpd
    | .ok (.updb _) => Config.latUpd
    | .ok .final => Config.latFinal
    | .ok .init => Config.latSimple
    | .ok (.load _ _) => Config.latSimple
    | .error _ => Config.latSimple

/-- The host has kept its offer: "hold cmd stable, and keep cmd_valid = 1" (R96). -/
def Clocked.held (c : Clocked) (p : Pins) : Bool :=
  match c.offered with
  | none => true
  | some w => p.valid && p.cmd == w

/-- What the host is bound to hold after an edge at which nothing was accepted (R96). -/
def Pins.offer (p : Pins) : Option Word := if p.valid then some p.cmd else none

/-- The block does this one thing, as one step of the machine. -/
def Clocked.performs (c : Clocked) (a : HostAction) (after : State → Clocked) :
    Host.Outcome Clocked Fault Refusal :=
  match step (c.core.offering [a]) with
  | .next s => .next (after s)
  | .fault f => .fault f
  | .refused r => .refused r

/-- One rising edge of clk. -/
def Clocked.tick (c : Clocked) (p : Pins) : Host.Outcome Clocked Fault Refusal :=
  if !c.held p then .refused .commandNotHeld
  else if p.rst then
    match c.inFlight with
    | some f => c.performs (.resetDuring f.word) (fun s => ⟨s, false, none, p.offer⟩)
    | none => c.performs .reset (fun s => ⟨s, false, none, p.offer⟩)
  else
    match c.inFlight with
    | some f =>
      if f.remaining ≤ 1 then c.performs (.command f.word) (fun s => ⟨s, true, none, p.offer⟩)
      else .next { c with inFlight := some ⟨f.word, f.remaining - 1⟩, offered := p.offer }
    | none =>
      if !c.ready then .next { c with ready := true, offered := p.offer }
      else if p.valid then
        .next { c with ready := false, inFlight := some ⟨p.cmd, latency p.cmd c.core⟩, offered := none }
      else .next { c with offered := none }

/-- The edges with these inputs, one after the other, stopping where the model has no move. -/
def Clocked.run : List Pins → Clocked → Host.Outcome Clocked Fault Refusal
  | [], c => .next c
  | p :: ps, c =>
    match c.tick p with
    | .next c' => Clocked.run ps c'
    | .fault f => .fault f
    | .refused r => .refused r

/-- What the host may read: the outputs are defined "only while cmd_ready = 1 and rst = 0", and "a model gives them no
value in between" (R97, U5, log entry 12). -/
def Clocked.visible (c : Clocked) (rst : Bool) : Option Outputs :=
  if c.ready && !rst then some (outputs c.core) else none

/-- The clock-level states that can arise: nothing is in progress while cmd_ready = 1, whatever is in progress has at least
one cycle left, and the pins are the only port (R95). -/
def Clocked.Sound (c : Clocked) : Prop :=
  (c.ready = true → c.inFlight = none) ∧
    (∀ f, c.inFlight = some f → 1 ≤ f.remaining) ∧ c.core.port = []

end Sys2Proof.Machine
end

