-- ==== Sys2Proof/Machine/Polynomials.lean ====
section
/-! DEFINITION. The polynomial view of R3 and R8, in which the derived rules R57, R60, R64, R67 and R68 are stated.
A natural number stands for the polynomial over GF(2) whose coefficient of x^i is its bit i, so addition is XOR and
multiplication by x^k is a left shift by k. No meaning of a command uses this file. -/

namespace Sys2Proof.Machine

/-- q(x)·P(x), with P(x) = x^7 + x^5 + x^4 + x^2 + x + 1 (R3). -/
def timesP (q : Nat) : Nat :=
  q <<< 7 ^^^ q <<< 5 ^^^ q <<< 4 ^^^ q <<< 2 ^^^ q <<< 1 ^^^ q

/-- r = v mod P: r has degree below 7 and v = q·P + r for some polynomial q (R8). -/
def IsRemainder (v r : Nat) : Prop := r < 128 ∧ ∃ q, v = timesP q ^^^ r

/-- M(x) of R60: the message read as one polynomial, bit 7 of the first byte its highest coefficient. -/
def messagePoly (m : List Byte) : Nat := m.foldl (fun acc b => acc <<< 8 ^^^ b.toNat) 0

/-- The ASCII message "123456789" (R14, R60). -/
def checkMessage : List Byte := [0x31#8, 0x32#8, 0x33#8, 0x34#8, 0x35#8, 0x36#8, 0x37#8, 0x38#8, 0x39#8]

end Sys2Proof.Machine
end

