-- ==== Sys2Proof/Safety.lean ====
section
/-! DEFINITION. The terms in which claims about the block are stated: the premise that nothing was rejected, the two
protocols, the message of a run, the invariant of the observation, and R75's step written over the three registers
alone, apart from the machine. -/

namespace Sys2Proof.Machine

/-- "no command rejected", the premise R89 asks of a claim about a run. -/
def State.Unrejected (s : State) : Prop := s.rejected = []

/-- The state after the word `w` has been taken from the port and rejected (R83, R84), field by field. -/
def State.afterRejection (s : State) (rest : List HostAction) (w : Word) (cause : Cause) : State where
  crc := s.crc
  phase := s.phase
  errcause :=
    match s.errcause, cause with
    | .none, .illegal => .illegal
    | .none, .mix => .mix
    | .none, .reuse => .reuse
    | .illegal, _ => .illegal
    | .mix, _ => .mix
    | .reuse, _ => .reuse
  port := rest
  position := s.position + 1
  rejected := s.rejected ++ [⟨s.position + 1, w, cause⟩]

/-- What R83 and R84 say of rejecting the word `w`, as a relation between the state before and the state after: CRC and PHASE stay, ERRCAUSE
takes the cause if it held NONE, the block goes on with what comes next at the port, and the observation gains this word with this cause. -/
def RejectedWith (s t : State) (rest : List HostAction) (w : Word) (cause : Cause) : Prop :=
  t.crc = s.crc ∧ t.phase = s.phase ∧ (s.errcause = .none → t.errcause = recorded cause) ∧
    (s.errcause ≠ .none → t.errcause = s.errcause) ∧ t.port = rest ∧
    ∃ r, t.rejected = s.rejected ++ [r] ∧ r.word = w ∧ r.cause = cause

/-- The state after a word has been taken from the port and performed, with what it wrote to the registers (R25, R75). -/
def State.afterPerforming (s : State) (rest : List HostAction) (r : Crc) (p : Phase) (e : ErrCause) : State where
  crc := r
  phase := p
  errcause := e
  port := rest
  position := s.position + 1
  rejected := s.rejected

/-- An entry of the observation that its own word justifies: ILLEGAL exactly for a word that is not well formed, MIX and REUSE
only for UPDS, UPDB and FINAL (R82). -/
def Rejection.Justified (r : Rejection) : Prop :=
  (r.cause = .illegal ↔ wellFormedWord r.word = false) ∧
    (r.cause ≠ .illegal → opField r.word = 0x2#4 ∨ opField r.word = 0x3#4 ∨ opField r.word = 0x4#4)

/-- The observation is in order: strictly rising positions, none beyond the words accepted so far, each entry justified, and an
ERRCAUSE other than NONE is the cause of some recorded rejection (R20, R78, R82, R89). -/
def State.LogSound (s : State) : Prop :=
  s.rejected.Pairwise (fun a b => a.position < b.position) ∧
    (∀ r ∈ s.rejected, 1 ≤ r.position ∧ r.position ≤ s.position ∧ r.Justified) ∧
    (s.errcause ≠ .none → ∃ r ∈ s.rejected, recorded r.cause = s.errcause)

/-- UPDS, UPDB and FINAL: the commands whose order the protocols fix (R72). -/
def IsProtocolStep : Instr → Prop
  | .init => False
  | .upds _ => True
  | .updb _ => True
  | .final => True
  | .load _ _ => False

/-- A beginning of one of the two protocols, after its INIT (R72). -/
def IsProtocolPrefix (cs : List Instr) : Prop :=
  (∃ m : List Byte, cs = m.map .upds) ∨ (∃ m : List Byte, cs = m.map .updb) ∨
    (∃ m : List Byte, cs = m.map .updb ++ [.final])

/-- The message byte a command brings, if it brings one. -/
def datumOf : Instr → Option Byte
  | .init => none
  | .upds d => some d
  | .updb d => some d
  | .final => none
  | .load _ _ => none

/-- The message of a computation: the bytes its updates brought, in order (R30). -/
def messageOf (cs : List Instr) : List Byte := cs.filterMap datumOf

/-- `for i = 7 downto 0: r = f(r, d[i])`, written out (R7, R55, R63). -/
def forEachBit (f : Crc → Bool → Crc) (r : Crc) (d : Byte) : Crc :=
  let r7 := f r (d.getLsbD 7)
  let r6 := f r7 (d.getLsbD 6)
  let r5 := f r6 (d.getLsbD 5)
  let r4 := f r5 (d.getLsbD 4)
  let r3 := f r4 (d.getLsbD 3)
  let r2 := f r3 (d.getLsbD 2)
  let r1 := f r2 (d.getLsbD 1)
  f r1 (d.getLsbD 0)

/-- `for k = 1 to 7: r = f(r)`, written out (R66). -/
def sevenRounds (f : Crc → Crc) (r : Crc) : Crc := f (f (f (f (f (f (f r))))))

/-- The three registers, as R75 groups them: s = (CRC, PHASE, ERRCAUSE). -/
structure Registers where
  /-- CRC. -/
  crc : Crc
  /-- PHASE. -/
  phase : Phase
  /-- ERRCAUSE. -/
  errcause : ErrCause
deriving DecidableEq, Repr

/-- The registers of a state. -/
def State.registers (s : State) : Registers := ⟨s.crc, s.phase, s.errcause⟩

/-- R83's Reject over the registers. -/
def Registers.reject (s : Registers) (e : ErrCause) : Registers :=
  ⟨s.crc, s.phase, match s.errcause with | .none => e | .illegal => .illegal | .mix => .mix | .reuse => .reuse⟩

/-- R75's `Step(s, w)` over the registers, by R43's well-formedness, the OP of R40 and the columns of R73. It calls neither
the decoder, nor the check, nor a meaning. -/
def Registers.step (s : Registers) (w : Word) : Registers :=
  if wellFormedWord w = false then s.reject .illegal
  else
    let d : Byte := w.extractLsb 7 0
    match (w.extractLsb 15 12).toNat, s.phase with
    | 1, _ => ⟨0x00#7, .fresh, .none⟩
    | 2, .fresh => ⟨forEachBit stepS s.crc d, .single, s.errcause⟩
    | 2, .single => ⟨forEachBit stepS s.crc d, .single, s.errcause⟩
    | 2, .buffer => s.reject .mix
    | 2, .final => s.reject .reuse
    | 3, .fresh => ⟨forEachBit stepB s.crc d, .buffer, s.errcause⟩
    | 3, .single => s.reject .mix
    | 3, .buffer => ⟨forEachBit stepB s.crc d, .buffer, s.errcause⟩
    | 3, .final => s.reject .reuse
    | 4, .fresh => ⟨sevenRounds (fun r => stepB r false) s.crc, .final, s.errcause⟩
    | 4, .single => s.reject .mix
    | 4, .buffer => ⟨sevenRounds (fun r => stepB r false) s.crc, .final, s.errcause⟩
    | 4, .final => s.reject .reuse
    | _, _ => ⟨w.extractLsb 6 0, Phase.ofCode (w.extractLsb 9 8), s.errcause⟩

end Sys2Proof.Machine
end

