-- ==== Sys2Proof/Certificates/Slice0/Obligations.lean ====
section
/-! DEFINITION. The statements for the provers, in the order of the spec's files. A docstring names the rule a statement
formalises, or says which choice of the model it rests on. -/

open Sys2Proof Sys2Proof.Machine

/-! ### Reset and the output ports -/

/-- R92. The state after reset; what a reset does from any state, seen from the port and at the pins, where the
block then has no command in progress. -/
def Obligations.ResetGivesTheStateInitGives : Prop :=
  (State.reset.registers = ⟨0x00#7, .fresh, .none⟩ ∧ outputs State.reset = ⟨0x00#8, 0x00#8, false⟩) ∧
  (∀ s : State, ∀ rest : List HostAction, s.port = .reset :: rest →
    ∃ t, step s = .next t ∧ t.registers = ⟨0x00#7, .fresh, .none⟩ ∧
      outputs t = ⟨0x00#8, 0x00#8, false⟩ ∧ t.port = rest) ∧
  (∀ c : Clocked, ∀ p : Pins, c.held p = true → p.rst = true →
    ∃ c', c.tick p = .next c' ∧ c'.core.registers = ⟨0x00#7, .fresh, .none⟩ ∧ c'.inFlight = none)

/-- Derived from R18, R21, R22 and R97: the three output ports, bit by bit, in every state; and that at the pins they show the state
while cmd_ready = 1 and rst = 0, and have no value while cmd_ready = 0 or rst = 1 (log entry 12). -/
def Obligations.OutputPortsShowTheRegisters : Prop :=
  (∀ s : State,
    (crcOut s).getLsbD 7 = false ∧ (∀ i < 7, (crcOut s).getLsbD i = s.crc.getLsbD i) ∧
    (statusOut s).extractLsb' 0 2 =
      (match s.phase with
        | .fresh => 0b00#2
        | .single => 0b01#2
        | .buffer => 0b10#2
        | .final => 0b11#2) ∧
    (statusOut s).extractLsb' 2 2 =
      (match s.errcause with
        | .none => 0b00#2
        | .illegal => 0b01#2
        | .mix => 0b10#2
        | .reuse => 0b11#2) ∧
    ((statusOut s).getLsbD 4 = true ↔ s.errcause ≠ .none) ∧
    (statusOut s).extractLsb' 5 3 = 0#3 ∧
    errOut s = (statusOut s).getLsbD 4 ∧ (errOut s = true ↔ s.errcause ≠ .none) ∧
    outputs s = ⟨crcOut s, statusOut s, errOut s⟩) ∧
  (∀ c : Clocked,
    (c.ready = true → c.visible false = some (outputs c.core)) ∧
    (∀ rst : Bool, c.ready = false ∨ rst = true → c.visible rst = none))

/-- Derived from R53, R18 and R21: reading crc_out and status_out and giving them back to LOAD restores CRC and PHASE, whatever
the block has done in between.
The position counted and recorded is the model's choice (log entry 4). -/
def Obligations.LoadRestoresWhatTheOutputsShowed : Prop :=
  ∀ s u : State, ∀ rest : List HostAction,
    u.port = .command (0x5000#16 ||| (((statusOut s).extractLsb' 0 2).setWidth 16 <<< 8) ||| (crcOut s).setWidth 16) :: rest →
    step u = .next (u.afterPerforming rest s.crc s.phase u.errcause)

/-! ### Decoding -/

/-- R46. Decoding is total, its result is the one R46's pseudocode gives, and two words decode to one command only for LOAD, where words that
differ in bit 7 alone do. -/
def Obligations.DecodeIsTheRuleOfEveryWord : Prop :=
  (∀ w : Word,
    (wellFormedWord w = false → ∃ e, decode w = .error e) ∧
    (wellFormedWord w = true →
      (w.extractLsb 15 12 = 0x1#4 → decode w = .ok .init) ∧
      (w.extractLsb 15 12 = 0x2#4 → decode w = .ok (.upds (w.extractLsb 7 0))) ∧
      (w.extractLsb 15 12 = 0x3#4 → decode w = .ok (.updb (w.extractLsb 7 0))) ∧
      (w.extractLsb 15 12 = 0x4#4 → decode w = .ok .final) ∧
      (w.extractLsb 15 12 = 0x5#4 →
        decode w = .ok (.load (w.extractLsb 6 0) (Phase.ofCode (w.extractLsb 9 8)))) ∧
      (w.extractLsb 15 12 = 0x1#4 ∨ w.extractLsb 15 12 = 0x2#4 ∨ w.extractLsb 15 12 = 0x3#4 ∨
        w.extractLsb 15 12 = 0x4#4 ∨ w.extractLsb 15 12 = 0x5#4))) ∧
  (∀ w₁ w₂ : Word, ∀ i : Instr, decode w₁ = .ok i → decode w₂ = .ok i →
    w₁ = w₂ ∨ ((∃ v p, i = .load v p) ∧ w₁ = w₂ ^^^ 0x0080#16)) ∧
  (∀ w : Word, ∀ v : Crc, ∀ p : Phase, decode w = .ok (.load v p) → decode (w ^^^ 0x0080#16) = .ok (.load v p))

/-- Derived from R46 and R48: every command's word is well formed and decodes to that command, at every value of every operand. -/
def Obligations.DecodeOfEncodeIsTheCommand : Prop :=
  ∀ i : Instr, wellFormedWord (encode i) = true ∧ decode (encode i) = .ok i

/-- Derived from R50 and the decode vectors of 95_test_vectors.md V9: words written out from the encoding decode as those tables say. -/
def Obligations.EncodingExamplesDecode : Prop :=
  decode 0x1000#16 = .ok .init ∧ decode 0x2031#16 = .ok (.upds 0x31#8) ∧
  decode 0x30FF#16 = .ok (.updb 0xFF#8) ∧ decode 0x4000#16 = .ok .final ∧
  decode 0x5223#16 = .ok (.load 0x23#7 .buffer) ∧ decode 0x51FF#16 = .ok (.load 0x7F#7 .single) ∧
  (∀ w ∈ [0x1001#16, 0x2131#16, 0x5C00#16, 0x0000#16, 0xF000#16, 0x4080#16, 0x2431#16], ∃ e, decode w = .error e)

/-- Derived from R44, R83 and R89: a word with an unassigned OP is rejected with ILLEGAL, whatever its other fields, and the observation gains it.
What an entry of the observation holds is the model's choice (log entry 5). -/
def Obligations.UnassignedOpIsRejected : Prop :=
  ∀ s : State, ∀ rest : List HostAction, ∀ w : Word, s.port = .command w :: rest →
    (opField w = 0x0#4 ∨ 0x6#4 ≤ opField w) → ∃ t, step s = .next t ∧ RejectedWith s t rest w .illegal

/-- Derived from R48 and R49: the words of each assembler line with operands in range, LOAD's with all eight bits of its byte, the expansions
of the pseudo-instructions, and the refusal of every line with a byte outside 0..255 or a phase outside 0..3. -/
def Obligations.AssemblerEncodesAndExpands : Prop :=
  (assemble .init = some [encode .init] ∧ assemble .final = some [encode .final]) ∧
  (∀ d : Byte, assemble (.upds d.toNat) = some [encode (.upds d)] ∧
    assemble (.updb d.toNat) = some [encode (.updb d)]) ∧
  (∀ v : Byte, ∀ p : Phase, assemble (.load v.toNat p.code.toNat) = some [loadWord v p] ∧
    decode (loadWord v p) = .ok (.load (v.setWidth 7) p)) ∧
  (∀ m : List Byte,
    assemble (.crcs (m.map BitVec.toNat)) = some (encode .init :: m.map (fun d => encode (.upds d))) ∧
    assemble (.crcb (m.map BitVec.toNat)) =
      some (encode .init :: (m.map (fun d => encode (.updb d)) ++ [encode .final])) ∧
    assemble (.bufupd (m.map BitVec.toNat)) = some (m.map (fun d => encode (.updb d)))) ∧
  (∀ c d : Byte, assemble (.sbu c.toNat d.toNat) = some [loadWord c .fresh, encode (.upds d)] ∧
    assemble (.fin c.toNat) = some [loadWord c .buffer, encode .final]) ∧
  (∀ b n : Nat, 255 < b → assemble (.upds b) = none ∧ assemble (.updb b) = none ∧ assemble (.load b n) = none ∧
    assemble (.sbu b n) = none ∧ assemble (.sbu n b) = none ∧ assemble (.fin b) = none) ∧
  (∀ m : List Nat, (∃ b ∈ m, 255 < b) →
    assemble (.crcs m) = none ∧ assemble (.crcb m) = none ∧ assemble (.bufupd m) = none) ∧
  (∀ b p : Nat, 3 < p → assemble (.load b p) = none)

/-! ### What each command does -/

/-- Derived from 40_init_load.md (R52) and R73: INIT completes in every state, and this is all it changes. -/
def Obligations.InitCompletes : Prop :=
  ∀ s : State, exec .init s = .next { s with crc := 0x00#7, phase := .fresh, errcause := .none }

/-- Derived from 40_init_load.md (R53) and R73: LOAD completes in every state, and this is all it changes. -/
def Obligations.LoadCompletes : Prop :=
  ∀ s : State, ∀ v : Crc, ∀ p : Phase, exec (.load v p) s = .next { s with crc := v, phase := p }

/-- Derived from 41_single_byte_update.md (R55) and R73: UPDS completes in FRESH and SINGLE, with the eight steps S, d[7] first, and
this is all it changes. -/
def Obligations.UpdsCompletes : Prop :=
  ∀ s : State, ∀ d : Byte, s.phase = .fresh ∨ s.phase = .single →
    exec (.upds d) s = .next { s with crc := forEachBit stepS s.crc d, phase := .single }

/-- Derived from 42_buffer_update.md (R63) and R73: UPDB completes in FRESH and BUFFER, with the eight steps B, d[7] first, and this is
all it changes. -/
def Obligations.UpdbCompletes : Prop :=
  ∀ s : State, ∀ d : Byte, s.phase = .fresh ∨ s.phase = .buffer →
    exec (.updb d) s = .next { s with crc := forEachBit stepB s.crc d, phase := .buffer }

/-- Derived from 42_buffer_update.md (R66) and R73: FINAL completes in FRESH and BUFFER, with seven steps B on a zero bit, and this is all
it changes. -/
def Obligations.FinalCompletes : Prop :=
  ∀ s : State, s.phase = .fresh ∨ s.phase = .buffer →
    exec .final s = .next { s with crc := sevenRounds (fun r => stepB r false) s.crc, phase := .final }

/-- R54. Step S, by its formula, and that the new bit 0 equals the feedback bit. -/
def Obligations.StepSIsItsFormula : Prop :=
  ∀ r : Crc, ∀ b : Bool,
    stepS r b =
      (if (r.getLsbD 6 ^^ b) = true then (r.extractLsb 5 0 ++ 0#1) ^^^ 0x37#7 else r.extractLsb 5 0 ++ 0#1) ∧
    (stepS r b).getLsbD 0 = (r.getLsbD 6 ^^ b)

/-- R61. Step B, by its formula. -/
def Obligations.StepBIsItsFormula : Prop :=
  ∀ r : Crc, ∀ b : Bool,
    stepB r b =
      (if r.getLsbD 6 = true then (r.extractLsb 5 0 ++ BitVec.ofBool b) ^^^ 0x37#7
       else r.extractLsb 5 0 ++ BitVec.ofBool b)

/-- Derived from R52, R83 and R89: a word with OP = 0x1 at the port: INIT in every PHASE and ERRCAUSE if it is 0x1000, and ILLEGAL otherwise.
The position counted and recorded, and what an entry of the observation holds, are the model's choices (log entries 4 and 5). -/
def Obligations.InitWordAtThePort : Prop :=
  ∀ s : State, ∀ rest : List HostAction, ∀ w : Word, s.port = .command w :: rest → opField w = 0x1#4 →
    (w = 0x1000#16 → step s = .next (s.afterPerforming rest 0x00#7 .fresh .none)) ∧
    (w ≠ 0x1000#16 → step s = .next (s.afterRejection rest w .illegal))

/-- Derived from R53, R83 and R89: a word with OP = 0x5 at the port: LOAD of DATA[6:0] and PH in every PHASE if RSV = 0, with ERRCAUSE kept, and ILLEGAL
otherwise; and which phase each PH names.
The position counted and recorded, and what an entry of the observation holds, are the model's choices (log entries 4 and 5). -/
def Obligations.LoadWordAtThePort : Prop :=
  (Phase.ofCode 0b00#2 = .fresh ∧ Phase.ofCode 0b01#2 = .single ∧ Phase.ofCode 0b10#2 = .buffer ∧
    Phase.ofCode 0b11#2 = .final) ∧
  ∀ s : State, ∀ rest : List HostAction, ∀ w : Word, s.port = .command w :: rest → opField w = 0x5#4 →
    (rsvField w = 0#2 →
      step s = .next (s.afterPerforming rest (w.extractLsb 6 0) (Phase.ofCode (w.extractLsb 9 8)) s.errcause)) ∧
    (rsvField w ≠ 0#2 → step s = .next (s.afterRejection rest w .illegal))

/-- Derived from R55, R83 and R89: a word with OP = 0x2 at the port: UPDS of DATA in FRESH and SINGLE, MIX in BUFFER, REUSE in FINAL, and ILLEGAL in every PHASE if
PH or RSV is not zero.
The position counted and recorded, and what an entry of the observation holds, are the model's choices (log entries 4 and 5). -/
def Obligations.UpdsWordAtThePort : Prop :=
  ∀ s : State, ∀ rest : List HostAction, ∀ w : Word, s.port = .command w :: rest → opField w = 0x2#4 →
    (phField w ≠ 0#2 ∨ rsvField w ≠ 0#2 → step s = .next (s.afterRejection rest w .illegal)) ∧
    (phField w = 0#2 → rsvField w = 0#2 →
      (s.phase = .fresh ∨ s.phase = .single →
        step s = .next (s.afterPerforming rest (forEachBit stepS s.crc (w.extractLsb 7 0)) .single s.errcause)) ∧
      (s.phase = .buffer → step s = .next (s.afterRejection rest w .mix)) ∧
      (s.phase = .final → step s = .next (s.afterRejection rest w .reuse)))

/-- Derived from R63, R83 and R89: a word with OP = 0x3 at the port: UPDB of DATA in FRESH and BUFFER, MIX in SINGLE, REUSE in FINAL, and ILLEGAL in every PHASE if PH
or RSV is not zero; and the value of UPDB from CRC = 0 that its corner cases name.
The position counted and recorded, and what an entry of the observation holds, are the model's choices (log entries 4 and 5). -/
def Obligations.UpdbWordAtThePort : Prop :=
  (∀ s : State, ∀ rest : List HostAction, ∀ w : Word, s.port = .command w :: rest → opField w = 0x3#4 →
    (phField w ≠ 0#2 ∨ rsvField w ≠ 0#2 → step s = .next (s.afterRejection rest w .illegal)) ∧
    (phField w = 0#2 → rsvField w = 0#2 →
      (s.phase = .fresh ∨ s.phase = .buffer →
        step s = .next (s.afterPerforming rest (forEachBit stepB s.crc (w.extractLsb 7 0)) .buffer s.errcause)) ∧
      (s.phase = .single → step s = .next (s.afterRejection rest w .mix)) ∧
      (s.phase = .final → step s = .next (s.afterRejection rest w .reuse)))) ∧
  (∀ d : Byte, (forEachBit stepB 0x00#7 d).setWidth 8 = if d < 0x80#8 then d else d ^^^ 0xB7#8)

/-- Derived from R66, R83 and R89: a word with OP = 0x4 at the port: FINAL in FRESH and BUFFER, MIX in SINGLE, REUSE in FINAL, and ILLEGAL in every PHASE if it is not
0x4000; and FINAL of 0.
The position counted and recorded, and what an entry of the observation holds, are the model's choices (log entries 4 and 5). -/
def Obligations.FinalWordAtThePort : Prop :=
  (∀ s : State, ∀ rest : List HostAction, ∀ w : Word, s.port = .command w :: rest → opField w = 0x4#4 →
    (w ≠ 0x4000#16 → step s = .next (s.afterRejection rest w .illegal)) ∧
    (w = 0x4000#16 →
      (s.phase = .fresh ∨ s.phase = .buffer →
        step s = .next (s.afterPerforming rest (sevenRounds (fun r => stepB r false) s.crc) .final s.errcause)) ∧
      (s.phase = .single → step s = .next (s.afterRejection rest w .mix)) ∧
      (s.phase = .final → step s = .next (s.afterRejection rest w .reuse)))) ∧
  sevenRounds (fun r => stepB r false) 0x00#7 = 0x00#7

/-! ### The laws of the arithmetic -/

/-- R3. The normal form 0x37 with its x^7 term and the Koopman form 0x5B with its +1 term are both 0xB7, which is the product of P with 1; the step
constant is 0x37; and a product with P is a product with (x + 1)(x^6 + x^5 + x^3 + x^2 + 1). -/
def Obligations.GeneratorFormsAgree : Prop :=
  poly.toNat ||| 0x80 = 0xB7 ∧ (0x5B <<< 1) ||| 1 = 0xB7 ∧ poly = 0x37#7 ∧ timesP 1 = 0xB7 ∧
  (∀ q : Nat, timesP q =
    (q <<< 6 ^^^ q <<< 5 ^^^ q <<< 3 ^^^ q <<< 2 ^^^ q) <<< 1 ^^^ (q <<< 6 ^^^ q <<< 5 ^^^ q <<< 3 ^^^ q <<< 2 ^^^ q))

/-- Derived from R8: every polynomial has exactly one remainder mod P, so the statements below that name a remainder name one value. -/
def Obligations.RemainderExistsAndIsUnique : Prop :=
  ∀ v : Nat, ∃ r, IsRemainder v r ∧ ∀ r', IsRemainder v r' → r' = r

/-- R57. StepS(r, b) = r(x)·x + b·x^7 mod P for every r and b, and UPDS(r, d) = r(x)·x^8 + d(x)·x^7 mod P for every r and d. -/
def Obligations.SingleByteUpdateIsDivisionByP : Prop :=
  (∀ r : Crc, ∀ b : Bool, IsRemainder (r.toNat <<< 1 ^^^ b.toNat <<< 7) (stepS r b).toNat) ∧
  (∀ r : Crc, ∀ d : Byte, IsRemainder (r.toNat <<< 8 ^^^ d.toNat <<< 7) (updsByte r d).toNat)

/-- R64. StepB(r, b) = r(x)·x + b mod P; UPDB(r, d) = r(x)·x^8 + d(x) mod P; UPDB(0, d) is d below 0x80 and d ^ 0xB7 from there on;
UPDB(r, d) = UPDB(r, 0) ^ UPDB(0, d); and UPDB(r, 0) = UPDS(r, 0) = r(x)·x^8 mod P. Each for every r, b and d. -/
def Obligations.BufferUpdateIsDivisionByP : Prop :=
  (∀ r : Crc, ∀ b : Bool, IsRemainder (r.toNat <<< 1 ^^^ b.toNat) (stepB r b).toNat) ∧
  (∀ r : Crc, ∀ d : Byte, IsRemainder (r.toNat <<< 8 ^^^ d.toNat) (updbByte r d).toNat) ∧
  (∀ d : Byte, (updbByte 0#7 d).setWidth 8 = if d < 0x80#8 then d else d ^^^ 0xB7#8) ∧
  (∀ r : Crc, ∀ d : Byte, updbByte r d = updbByte r 0#8 ^^^ updbByte 0#7 d) ∧
  (∀ r : Crc, updbByte r 0#8 = updsByte r 0#8 ∧ IsRemainder (r.toNat <<< 8) (updbByte r 0#8).toNat)

/-- R58. With T[v] = UPDS(0, v), UPDS(r, d) = T[((r << 1) ^ d) & 0xFF] for every r and d, and T[v] = v(x)·x^7 mod P for every byte v. -/
def Obligations.SingleByteUpdateTableForm : Prop :=
  (∀ r : Crc, ∀ d : Byte, updsByte r d = updsByte 0#7 ((r.setWidth 8 <<< 1) ^^^ d)) ∧
  (∀ v : Byte, IsRemainder (v.toNat <<< 7) (updsByte 0#7 v).toNat)

/-- R59. UPDS of two sums is the sum of the two UPDS, so UPDS(r, d) = UPDS(r, 0) ^ UPDS(0, d); UPDS(r, 0) = r(x)·x^8 mod P = UPDB(r, 0); and for each d the
map r to UPDS(r, d) is a bijection. -/
def Obligations.SingleByteUpdateLinearAndInvertible : Prop :=
  (∀ r₁ r₂ : Crc, ∀ d₁ d₂ : Byte, updsByte (r₁ ^^^ r₂) (d₁ ^^^ d₂) = updsByte r₁ d₁ ^^^ updsByte r₂ d₂) ∧
  (∀ r : Crc, ∀ d : Byte, updsByte r d = updsByte r 0#8 ^^^ updsByte 0#7 d) ∧
  (∀ r : Crc, IsRemainder (r.toNat <<< 8) (updsByte r 0#8).toNat ∧ updsByte r 0#8 = updbByte r 0#8) ∧
  (∀ d : Byte, Function.Bijective (fun r => updsByte r d))

/-- R67. FINAL(r) = r(x)·x^7 mod P = UPDS(0, r) for every r; FINAL is a bijection; its only fixed points are 0x00 and 0x6D; and nine applications give the
identity where one to eight do not. -/
def Obligations.FinalLaws : Prop :=
  (∀ r : Crc, IsRemainder (r.toNat <<< 7) (finalRounds r).toNat ∧ finalRounds r = updsByte 0#7 (r.setWidth 8)) ∧
  Function.Bijective finalRounds ∧
  (∀ r : Crc, finalRounds r = r ↔ r = 0x00#7 ∨ r = 0x6D#7) ∧
  (∀ r : Crc, finalRounds^[9] r = r) ∧ (∀ k, 1 ≤ k → k < 9 → finalRounds^[k] 0x01#7 ≠ 0x01#7)

/-- R69. UPDS(r, d) = UPDB(r, d) iff d is 0x00, 0x6D, 0xB7 or 0xDA, for every r, and their difference is d(x)·(x^7 + 1) mod P; UPDS(r, d) = FINAL(UPDB(r, d)) iff r is
0x00 or 0x6D, for every d; and from a seed s over n bytes the single-byte protocol gives s(x)·x^(8n) + M(x)·x^7 and the buffer protocol s(x)·x^(8n+7) + M(x)·x^7, mod P. -/
def Obligations.TwoStylesAgreeExactlyHere : Prop :=
  (∀ r : Crc, ∀ d : Byte, updsByte r d = updbByte r d ↔ d = 0x00#8 ∨ d = 0x6D#8 ∨ d = 0xB7#8 ∨ d = 0xDA#8) ∧
  (∀ r : Crc, ∀ d : Byte, IsRemainder (d.toNat <<< 7 ^^^ d.toNat) (updsByte r d ^^^ updbByte r d).toNat) ∧
  (∀ r : Crc, ∀ d : Byte, updsByte r d = finalRounds (updbByte r d) ↔ r = 0x00#7 ∨ r = 0x6D#7) ∧
  (∀ seed : Crc, ∀ m : List Byte,
    IsRemainder (seed.toNat <<< (8 * m.length) ^^^ messagePoly m <<< 7) (m.foldl updsByte seed).toNat ∧
    IsRemainder (seed.toNat <<< (8 * m.length + 7) ^^^ messagePoly m <<< 7) (finalRounds (m.foldl updbByte seed)).toNat)

/-- Derived from R71 and R67: as a function, a second FINAL changes the value except for those that are 0x00 or 0x6D; and in PHASE FINAL the block does not perform it: it keeps
CRC and PHASE and records REUSE if ERRCAUSE was NONE. -/
def Obligations.SecondFinalIsRejectedAndNotIdempotent : Prop :=
  (∀ r : Crc, finalRounds (finalRounds r) = finalRounds r ↔ r = 0x00#7 ∨ r = 0x6D#7) ∧
  (∀ s : State, s.phase = .final →
    ∃ t, exec .final s = .next t ∧ t.crc = s.crc ∧ t.phase = .final ∧
      t.errcause = if s.errcause = .none then .reuse else s.errcause)

/-! ### The block against the source's software -/

/-- R56. UPDS gives what the source's literal algorithm gives, for every 8-bit crc input and every working width of 8 or more. -/
def Obligations.SingleByteUpdateMatchesTheSource : Prop :=
  ∀ W : Nat, 8 ≤ W → ∀ crc datum : Byte,
    sourceSBU W crc.toNat datum.toNat = (updsByte (crc.extractLsb 6 0) datum).toNat

/-- R62. UPDB gives, byte for byte, what the source's literal loop gives, for every 8-bit crc input and every working width of 8 or more. -/
def Obligations.BufferUpdateMatchesTheSource : Prop :=
  ∀ W : Nat, 8 ≤ W → ∀ crc byte : Byte,
    sourceBUByte W crc.toNat byte.toNat = (updbByte (crc.extractLsb 6 0) byte).toNat

/-- Derived from R12, R29 and R30: each source operation's command sequence completes without a rejection, from any state, and leaves the source
operation's return value on crc_out, bit for bit, at every working width of 8 or more. A bufferUpdate of length 0 returns its crc unmasked, so there the
crc is a 7-bit value, as the source's registers are (R10). -/
def Obligations.CommandSequencesReturnWhatTheSourceReturns : Prop :=
  ∀ W : Nat, 8 ≤ W → ∀ s : State,
    (∃ t, runWords callInit s = .next t ∧ (crcOut t).toNat = 0 ∧ t.rejected = s.rejected) ∧
    (∀ p : Phase, ∀ crc datum : Byte, p = .single ∨ p = .fresh →
      ∃ t, runWords (callSingleByteUpdate p crc datum) s = .next t ∧
        (crcOut t).toNat = sourceSBU W crc.toNat datum.toNat ∧ t.rejected = s.rejected) ∧
    (∀ p : Phase, ∀ crc : Byte, ∀ data : List Byte, ∀ length : Nat, p = .buffer ∨ p = .fresh →
      length ≤ data.length → (1 ≤ length ∨ crc.getLsbD 7 = false) →
      ∃ ws t, callBufferUpdate p crc data length = .next ws ∧ runWords ws s = .next t ∧
        (crcOut t).toNat = sourceBufferUpdate W crc.toNat (data.take length) ∧ t.rejected = s.rejected) ∧
    (∀ crc : Byte, ∃ t, runWords (callFinalize crc) s = .next t ∧
      (crcOut t).toNat = sourceFinalize W crc.toNat ∧ t.rejected = s.rejected)

/-- Derived from R29 and U1: the host's call past the end of its buffer has no move, and no other bufferUpdate call is refused. -/
def Obligations.HostHasNoMovePastItsBuffer : Prop :=
  ∀ p : Phase, ∀ crc : Byte, ∀ data : List Byte, ∀ length : Nat,
    (data.length < length → callBufferUpdate p crc data length = .refused .hostReadsPastBuffer) ∧
    (length ≤ data.length → ∃ ws, callBufferUpdate p crc data length = .next ws ∧ ws.length = length + 1)

/-! ### Rejection and the protocol -/

/-- Derived from R73 (its table), R83 and R89: the legality check, cell by cell; a command whose cell is OK is not rejected; and one whose cell is MIX or REUSE leaves CRC and PHASE and is
recorded with its own word and that cause. The position recorded and what else an entry holds are the model's choices (log entries 4 and 5). -/
def Obligations.LegalityTable : Prop :=
  (∀ p : Phase, check p .init = none) ∧ (∀ p q : Phase, ∀ v : Crc, check p (.load v q) = none) ∧
  (∀ d : Byte, check .fresh (.upds d) = none ∧ check .single (.upds d) = none ∧
    check .buffer (.upds d) = some .mix ∧ check .final (.upds d) = some .reuse) ∧
  (∀ d : Byte, check .fresh (.updb d) = none ∧ check .single (.updb d) = some .mix ∧
    check .buffer (.updb d) = none ∧ check .final (.updb d) = some .reuse) ∧
  (check .fresh .final = none ∧ check .single .final = some .mix ∧
    check .buffer .final = none ∧ check .final .final = some .reuse) ∧
  (∀ i : Instr, ∀ s : State,
    (check s.phase i = none → ∃ t, exec i s = .next t ∧ t.rejected = s.rejected) ∧
    (∀ cause, check s.phase i = some cause →
      ∃ t, exec i s = .next t ∧ t.crc = s.crc ∧ t.phase = s.phase ∧
        t.rejected = s.rejected ++ [⟨s.position, encode i, cause⟩]))

/-- R74. A performed INIT leaves FRESH, LOAD its phase operand, UPDS SINGLE, UPDB BUFFER and FINAL FINAL; a rejected command leaves PHASE. -/
def Obligations.PhaseTransitions : Prop :=
  ∀ i : Instr, ∀ s t : State, exec i s = .next t →
    (check s.phase i = none →
      t.phase = match i with
        | .init => .fresh
        | .load _ p => p
        | .upds _ => .single
        | .updb _ => .buffer
        | .final => .final) ∧
    (∀ cause, check s.phase i = some cause → t.phase = s.phase)

/-- Derived from R83, R84 and R89: a command that is rejected is taken from the port, changes nothing but ERRCAUSE, and that only from NONE, and is added to the
observation; the block goes on with what comes next at the port. A command that is not rejected leaves the observation. What an entry of the observation holds is the model's choice (log entry 5). -/
def Obligations.RejectionRecordsItsCauseAndNothingElse : Prop :=
  ∀ s : State, ∀ rest : List HostAction, ∀ w : Word, s.port = .command w :: rest →
    (∀ cause, verdict w s = some cause → ∃ t, step s = .next t ∧ RejectedWith s t rest w cause) ∧
    (verdict w s = none → ∃ t, step s = .next t ∧ t.port = rest ∧ t.rejected = s.rejected)

/-- Derived from R84 and R89: ERRCAUSE is sticky: from NONE a step changes it only by rejecting a command, and to the cause that the observation gains; a recorded cause stays
through every step but INIT and reset; and those set it to NONE. What an entry of the observation holds is the model's choice (log entry 5). -/
def Obligations.ErrcauseIsStickyUntilInitOrReset : Prop :=
  ∀ s t : State, step s = .next t →
    (s.errcause = .none → t.errcause ≠ .none →
      ∃ r, t.rejected = s.rejected ++ [r] ∧ t.errcause = recorded r.cause) ∧
    (s.errcause ≠ .none →
      s.port.head? ≠ some (.command 0x1000#16) → s.port.head? ≠ some .reset →
      (∀ w, s.port.head? ≠ some (.resetDuring w)) → t.errcause = s.errcause) ∧
    (s.port.head? = some (.command 0x1000#16) ∨ s.port.head? = some .reset ∨
      (∃ w, s.port.head? = some (.resetDuring w)) → t.errcause = .none)

/-- Derived from R20, R84 and R89: over a run of any words without an INIT, from a state with ERRCAUSE = NONE, ERRCAUSE ends as the cause of the first command
rejected in the run, and as NONE if none was. What an entry of the observation holds is the model's choice (log entry 5). -/
def Obligations.ErrcauseIsTheFirstRejectionOfTheRun : Prop :=
  ∀ s : State, s.errcause = .none → ∀ ws : List Word, (∀ w ∈ ws, w ≠ 0x1000#16) →
    ∃ t new, runWords ws s = .next t ∧ t.rejected = s.rejected ++ new ∧
      t.errcause = (match new.head? with
        | none => .none
        | some r => recorded r.cause)

/-- Derived from R72, R73 and R74: after an INIT in any state, a sequence of UPDS, UPDB and FINAL is performed without a rejection exactly when it
is a beginning of one of the two protocols. -/
def Obligations.AcceptedExactlyTheProtocolPrefixes : Prop :=
  ∀ s : State, ∀ cs : List Instr, (∀ c ∈ cs, IsProtocolStep c) →
    ∃ t, runWords (encode .init :: cs.map encode) s = .next t ∧ (t.rejected = s.rejected ↔ IsProtocolPrefix cs)

/-- R75. Every run of accepted words completes, whatever the words and the start state, and its registers are those of R75's Step applied to the
words one after the other. -/
def Obligations.RunsAreTheStepOfTheRegisters : Prop :=
  ∀ ws : List Word, ∀ s : State, ∃ t, runWords ws s = .next t ∧ t.registers = ws.foldl Registers.step s.registers

/-- Derived from R75: when the word at the port decodes to a command, the step runs that command, with the word taken from the port and one more word
counted.
The position counted and recorded is the model's choice (log entry 4). -/
def Obligations.StepRunsTheDecodedCommand : Prop :=
  ∀ s : State, ∀ rest : List HostAction, ∀ w : Word, ∀ i : Instr, s.port = .command w :: rest → decode w = .ok i →
    step s = exec i { s with port := rest, position := s.position + 1 }

/-- Derived from R91, R92 and R93: the steps that perform no command. With nothing at the port all state survives (the model's choice, log entry 3); a reset that abandons a command makes none
of its writes (log entry 6); the count of words stays through a reset and takes in an abandoned word (the model's choice, log entry 4); and a reset keeps the run's observation (the
model's choice, log entry 5). -/
def Obligations.StepsThatPerformNoCommand : Prop :=
  (∀ s : State, s.port = [] → step s = .next s) ∧
  (∀ s : State, ∀ rest : List HostAction, s.port = .reset :: rest →
    step s = .next ⟨0x00#7, .fresh, .none, rest, s.position, s.rejected⟩) ∧
  (∀ s : State, ∀ rest : List HostAction, ∀ w : Word, s.port = .resetDuring w :: rest →
    step s = .next ⟨0x00#7, .fresh, .none, rest, s.position + 1, s.rejected⟩)

/-- Derived from R35: what a step leaves in CRC, PHASE and ERRCAUSE depends on those three and on the host's next action alone. -/
def Obligations.StepReadsOnlyTheRegistersAndTheWord : Prop :=
  ∀ s₁ s₂ t₁ t₂ : State, s₁.registers = s₂.registers → s₁.port.head? = s₂.port.head? →
    step s₁ = .next t₁ → step s₂ = .next t₂ → t₁.registers = t₂.registers ∧ outputs t₁ = outputs t₂

/-- Derived from R75, R89 and R91: the machine never stops, and a step adds at most one entry at the end of the observation and removes none.
The position counted and recorded, and that a reset keeps the entries too, are the model's choices (log entries 4 and 5). -/
def Obligations.EveryStepGoesOnAndKeepsTheRejections : Prop :=
  ∀ s : State, ∃ t, step s = .next t ∧
    (t.rejected = s.rejected ∨ ∃ r, t.rejected = s.rejected ++ [r] ∧ r.position = t.position)

/-- Derived from R20, R78, R82 and R89: every step keeps the observation sound: positions rise and stay within the words accepted, each entry's cause is one its word can have, and an ERRCAUSE
other than NONE is the cause of some entry. The positions, and that an entry holds its word and stays
through a reset, are the model's choices (log entries 4 and 5). -/
def Obligations.EveryStepKeepsTheLogSound : Prop :=
  ∀ s t : State, s.LogSound → step s = .next t → t.LogSound

/-- Derived from R92: the observation is sound after reset, and empty (log entry 2: the empty observation is the model's choice). -/
def Obligations.LogSoundAtReset : Prop := State.reset.LogSound ∧ State.reset.Unrejected

/-! ### Whole computations -/

/-- R60. The single-byte protocol over any message, from any state: it completes without a rejection, CRC holds M(x)·x^7 mod P, the empty message gives 0, the message
split anywhere into two runs ends in the same state as the whole, and "123456789" gives 0x04. -/
def Obligations.SingleByteProtocolComputesTheCrc : Prop :=
  (∀ s : State, ∀ m : List Byte,
    ∃ t, runWords (encode .init :: m.map (fun d => encode (.upds d))) s = .next t ∧
      IsRemainder (messagePoly m <<< 7) t.crc.toNat ∧ t.rejected = s.rejected ∧ (m = [] → t.crc = 0x00#7) ∧
      t.phase = (if m = [] then .fresh else .single)) ∧
  (∀ s : State, ∀ a b : List Byte,
    ∃ t u, runWords (encode .init :: a.map (fun d => encode (.upds d))) s = .next t ∧
      runWords (b.map (fun d => encode (.upds d))) t = .next u ∧
      runWords (encode .init :: (a ++ b).map (fun d => encode (.upds d))) s = .next u) ∧
  IsRemainder (messagePoly checkMessage <<< 7) 0x04

/-- R68. The buffer protocol over any message, from any state: it completes without a rejection, CRC holds M(x)·x^7 mod P, and that is the value of the
single-byte protocol over the same message; for "123456789" it is 0x04, from 0x23 before FINAL. -/
def Obligations.BufferProtocolComputesTheSameCrc : Prop :=
  (∀ s : State, ∀ m : List Byte,
    ∃ t u, runWords (encode .init :: (m.map (fun d => encode (.updb d)) ++ [encode .final])) s = .next t ∧
      runWords (encode .init :: m.map (fun d => encode (.upds d))) s = .next u ∧
      IsRemainder (messagePoly m <<< 7) t.crc.toNat ∧ t.crc = u.crc ∧ t.phase = .final ∧ t.rejected = s.rejected) ∧
  checkMessage.foldl updbByte 0x00#7 = 0x23#7 ∧ finalRounds 0x23#7 = 0x04#7 ∧ checkMessage.foldl updsByte 0x00#7 = 0x04#7

/-- Derived from R76: after an INIT, or after a reset, any sequence of UPDS, UPDB and FINAL that ends unrejected and in a phase other than BUFFER leaves the CRC of its message
on crc_out. -/
def Obligations.UnrejectedOutputIsTheCrcOfTheMessage : Prop :=
  ∀ s t : State, ∀ cs : List Instr, (∀ c ∈ cs, IsProtocolStep c) →
    (runWords (encode .init :: cs.map encode) s = .next t ∨ runWords (cs.map encode) (resetBlock s) = .next t) →
    t.rejected = s.rejected → t.phase ≠ .buffer →
    IsRemainder (messagePoly (messageOf cs) <<< 7) (crcOut t).toNat

/-- Derived from R65, R70 and R30: from FRESH or BUFFER, a buffer update split anywhere ends in the state the whole ends in, it is in PHASE BUFFER at the split, and an empty part
changes no register. -/
def Obligations.BufferUpdateStreams : Prop :=
  ∀ s : State, ∀ a b : List Byte, s.phase = .fresh ∨ s.phase = .buffer →
    ∃ t u, runWords (a.map (fun d => encode (.updb d))) s = .next t ∧
      runWords (b.map (fun d => encode (.updb d))) t = .next u ∧
      runWords ((a ++ b).map (fun d => encode (.updb d))) s = .next u ∧
      (a ≠ [] → t.phase = .buffer) ∧ (a = [] → t.registers = s.registers) ∧
      (b = [] → u.registers = t.registers)

/-! ### The block at its pins -/

/-- Derived from R93, R95 and R96: at an edge with rst = 1 the block takes its reset values, drives cmd_ready = 0, accepts nothing and abandons a command in progress with none of its writes
made; at the first edge with rst = 0 it holds its reset values, drives cmd_ready = 1 and takes no offer yet (the model's reading, log entry 11); and it keeps cmd_ready at 1 until a command is
accepted. The host is one that holds its offer, also while rst = 1 (the model's choice, log entry 10). -/
def Obligations.ResetAtThePins : Prop :=
  (∀ c : Clocked, ∀ p : Pins, c.held p = true → p.rst = true →
    ∃ c', c.tick p = .next c' ∧ c'.core.registers = ⟨0x00#7, .fresh, .none⟩ ∧ c'.ready = false ∧
      c'.inFlight = none) ∧
  (∀ c : Clocked, ∀ p : Pins, c.held p = true → p.rst = false → c.ready = false → c.inFlight = none →
    ∃ c', c.tick p = .next c' ∧ c'.core = c.core ∧ c'.ready = true ∧ c'.inFlight = none) ∧
  (∀ c : Clocked, ∀ p : Pins, c.held p = true → p.rst = false → c.ready = true → c.inFlight = none → p.valid = false →
    ∃ c', c.tick p = .next c' ∧ c'.core = c.core ∧ c'.ready = true ∧ c'.inFlight = none)

/-- Derived from R95 and R101: from a sound state, an edge takes a new command up exactly when rst = 0, cmd_valid = 1 and cmd_ready = 1, and cmd_ready is then 0 with the
registers as they were. That the command's latency is chosen at this edge is the model's reading (log entry 9). -/
def Obligations.AcceptedExactlyAtTheHandshake : Prop :=
  ∀ c : Clocked, ∀ p : Pins, c.Sound → c.held p = true →
    ((p.rst = false ∧ p.valid = true ∧ c.ready = true) →
      ∃ c', c.tick p = .next c' ∧ c'.core = c.core ∧ c'.ready = false ∧
        c'.inFlight = some ⟨p.cmd, latency p.cmd c.core⟩) ∧
    (¬ (p.rst = false ∧ p.valid = true ∧ c.ready = true) →
      ∃ c', c.tick p = .next c' ∧ (∀ f', c'.inFlight = some f' → ∃ f, c.inFlight = some f ∧ f'.word = f.word))

/-- Derived from R96 and U6: the host that changes cmd or drops cmd_valid before acceptance has no move; every other host has one, in every state. That the duty holds at edges with
rst = 1 too is the model's choice (log entry 10). -/
def Obligations.HostMustHoldItsOffer : Prop :=
  ∀ c : Clocked, ∀ p : Pins,
    (∀ w, c.offered = some w → (p.valid = false ∨ p.cmd ≠ w) → c.tick p = .refused .commandNotHeld) ∧
    ((∀ w, c.offered = some w → p.valid = true ∧ p.cmd = w) → ∃ c', c.tick p = .next c')

/-- Derived from R95, R97, R99 and R101: a command accepted in a sound state is performed after exactly its latency, whatever the host offers meanwhile within its duty, and until then
cmd_ready is 0, the registers are as they were and the outputs have no value (log entry 12); at the last edge all its writes appear together, and they are those of one step. When the
latency is chosen is the model's reading (log entry 9). -/
def Obligations.AcceptedCommandCompletesAfterItsLatency : Prop :=
  ∀ c c₁ : Clocked, ∀ p : Pins, ∀ ps : List Pins, c.Sound → c.ready = true → p.rst = false → p.valid = true →
    c.tick p = .next c₁ → (∀ q ∈ ps, q.rst = false) →
    (ps.length < latency p.cmd c.core → ∀ c₂, Clocked.run ps c₁ = .next c₂ →
      c₂.ready = false ∧ c₂.core = c.core ∧ c₂.visible false = none) ∧
    (ps.length = latency p.cmd c.core → ∀ c₂, Clocked.run ps c₁ = .next c₂ →
      c₂.ready = true ∧ c₂.inFlight = none ∧ step (c.core.offering [.command p.cmd]) = .next c₂.core ∧
        c₂.visible false = some (outputs c₂.core))

/-- Derived from R95 and R101: with a host that offers nothing more, every accepted command completes within a finite number of edges. -/
def Obligations.EveryAcceptedCommandCompletes : Prop :=
  ∀ c : Clocked, ∀ w : Word, c.Sound → c.ready = true →
    (c.offered = none ∨ c.offered = some w) →
    ∃ n c₂, Clocked.run (⟨false, true, w⟩ :: List.replicate n ⟨false, false, w⟩) c = .next c₂ ∧ 1 ≤ n ∧
      c₂.ready = true ∧ step (c.core.offering [.command w]) = .next c₂.core

/-- Derived from R93, R95 and R101: the clock-level state is sound after reset and every edge keeps it so: nothing is in progress while cmd_ready = 1, what is in progress has a cycle left
(R101: every latency is at least 1; that it is chosen at acceptance is the model's reading, log entry 9), and nothing but the pins is a port. That the host's list of actions is empty after reset
is the model's choice (log entry 2). -/
def Obligations.EveryEdgeKeepsTheClockedStateSound : Prop :=
  Clocked.reset.Sound ∧ ∀ c c' : Clocked, ∀ p : Pins, c.Sound → c.tick p = .next c' → c'.Sound

/-- Derived from R75, R93, R95 and R101: from every sound state, an edge of a host within its duty changes the block by exactly the step its pins and its progress call for. With rst = 1 it is the step of reset, or
of the reset that abandons the command in progress; with rst = 0 it is the step of the command in progress if that is at its last cycle; and every other edge leaves the state as it is. (Log
entries 6 and 10 for the reset during a command and the duty during reset.) -/
def Obligations.PinsRefineTheStep : Prop :=
  ∀ c : Clocked, ∀ p : Pins, c.Sound → c.held p = true → ∃ c', c.tick p = .next c' ∧
    (p.rst = true → c.inFlight = none → step (c.core.offering [.reset]) = .next c'.core) ∧
    (∀ f, p.rst = true → c.inFlight = some f → step (c.core.offering [.resetDuring f.word]) = .next c'.core) ∧
    (∀ f, p.rst = false → c.inFlight = some f → f.remaining = 1 →
      step (c.core.offering [.command f.word]) = .next c'.core) ∧
    (∀ f, p.rst = false → c.inFlight = some f → 1 < f.remaining → c'.core = c.core) ∧
    (p.rst = false → c.inFlight = none → c'.core = c.core)

/-- Derived from R100: the bit-serial divider holds the values of UPDS and UPDB after eight clocks and of FINAL after seven, is idle then, and is busy at every earlier clock. -/
def Obligations.BitSerialDividerGivesTheSameValues : Prop :=
  (∀ r : Crc, ∀ d : Byte,
    ((Divider.clocks 8 (.startUpds r d)).reg = updsByte r d ∧ (Divider.clocks 8 (.startUpds r d)).busy = false) ∧
    ((Divider.clocks 8 (.startUpdb r d)).reg = updbByte r d ∧ (Divider.clocks 8 (.startUpdb r d)).busy = false) ∧
    (∀ k < 8, (Divider.clocks k (.startUpds r d)).busy = true ∧ (Divider.clocks k (.startUpdb r d)).busy = true)) ∧
  (∀ r : Crc, (Divider.clocks 7 (.startFinal r)).reg = finalRounds r ∧
    (Divider.clocks 7 (.startFinal r)).busy = false ∧ (∀ k < 7, (Divider.clocks k (.startFinal r)).busy = true))
end

