-- ==== Sys2Proof/Laws/Arithmetic.lean ====
section
/-! SUPPORT. The two one-bit steps as XOR of a shift and of the feedback, and the product with P. -/

namespace Sys2Proof.Machine

/-- Step S as a sum over GF(2) (R54). -/
theorem stepS_eq_xor (r : Crc) (b : Bool) :
    stepS r b = (r <<< 1) ^^^ (if (r.getLsbD 6 ^^ b) = true then poly else 0#7) := by
  revert r b; decide

/-- Step B as a sum over GF(2) (R61). -/
theorem stepB_eq_xor (r : Crc) (b : Bool) :
    stepB r b = (r <<< 1) ^^^ (BitVec.ofBool b).setWidth 7 ^^^ (if r.getLsbD 6 = true then poly else 0#7) := by
  revert r b; decide

/-- Step S divides by P: what the shift gained is one product with P (R57). -/
theorem stepS_timesP (r : Crc) (b : Bool) :
    r.toNat <<< 1 ^^^ b.toNat <<< 7 = timesP (r.getLsbD 6 ^^ b).toNat ^^^ (stepS r b).toNat := by
  revert r b; decide

/-- Step B divides by P (R64). -/
theorem stepB_timesP (r : Crc) (b : Bool) :
    r.toNat <<< 1 ^^^ b.toNat = timesP (r.getLsbD 6).toNat ^^^ (stepB r b).toNat := by
  revert r b; decide

@[simp] theorem timesP_zero : timesP 0 = 0 := rfl

/-- The product with P distributes over addition (R8). -/
theorem timesP_xor (p q : Nat) : timesP (p ^^^ q) = timesP p ^^^ timesP q := by
  simp only [timesP, Nat.shiftLeft_xor_distrib]
  ac_rfl

/-- The product with P commutes with a shift (R8). -/
theorem timesP_shiftLeft (q k : Nat) : timesP (q <<< k) = timesP q <<< k := by
  simp only [timesP, Nat.shiftLeft_xor_distrib, ← Nat.shiftLeft_add, Nat.add_comm k]

end Sys2Proof.Machine
end

