-- ==== Sys2Proof/Laws/Decode.lean ====
section
/-! SUPPORT. What the decoder, the encoder and the phase codes do. -/

namespace Sys2Proof

@[simp] theorem Phase.ofCode_code (p : Phase) : Phase.ofCode p.code = p := by cases p <;> rfl

@[simp] theorem Phase.code_ofCode (c : BitVec 2) : (Phase.ofCode c).code = c := by revert c; decide

/-- Two words with the same four fields are one word (R39). -/
theorem word_ext_fields {w v : Word} (h1 : opField w = opField v) (h2 : rsvField w = rsvField v)
    (h3 : phField w = phField v) (h4 : dataField w = dataField v) : w = v := by
  have e1 := fun i => congrArg (fun x => BitVec.getLsbD x i) h1
  have e2 := fun i => congrArg (fun x => BitVec.getLsbD x i) h2
  have e3 := fun i => congrArg (fun x => BitVec.getLsbD x i) h3
  have e4 := fun i => congrArg (fun x => BitVec.getLsbD x i) h4
  simp only [opField, rsvField, phField, dataField, BitVec.getLsbD_extractLsb'] at e1 e2 e3 e4
  apply BitVec.eq_of_getLsbD_eq
  intro i hi
  have f1 := e1 (i - 12)
  have f2 := e2 (i - 10)
  have f3 := e3 (i - 8)
  have f4 := e4 i
  interval_cases i <;> simp_all

/-- The bit ranges of R43 and R46 are the fields of R39. -/
theorem extractLsb_fields (w : Word) :
    w.extractLsb 15 12 = opField w ∧ w.extractLsb 11 10 = rsvField w ∧ w.extractLsb 9 8 = phField w ∧
      w.extractLsb 7 0 = dataField w ∧ w.extractLsb 6 0 = (dataField w).setWidth 7 := by
  refine ⟨rfl, rfl, rfl, rfl, ?_⟩
  apply BitVec.eq_of_getLsbD_eq
  intro i hi
  interval_cases i <;> simp [dataField]

/-- R43 by the fields of R39. -/
theorem wellFormedWord_iff (w : Word) : wellFormedWord w = true ↔
    rsvField w = 0#2 ∧ ((opField w = 0x1#4 ∧ phField w = 0#2 ∧ dataField w = 0#8) ∨
      (opField w = 0x2#4 ∧ phField w = 0#2) ∨ (opField w = 0x3#4 ∧ phField w = 0#2) ∨
      (opField w = 0x4#4 ∧ phField w = 0#2 ∧ dataField w = 0#8) ∨ opField w = 0x5#4) := by
  obtain ⟨a, b, c, d, _⟩ := extractLsb_fields w
  unfold wellFormedWord
  rw [a, b, c, d]
  simp
  tauto

/-- `checkFields` answers the command exactly when the fields that must be zero are (R43). -/
theorem checkFields_ok {w : Word} {a b : Bool} {i j : Instr} :
    checkFields w a b i = .ok j ↔
      rsvField w = 0#2 ∧ (a = true ∨ phField w = 0#2) ∧ (b = true ∨ dataField w = 0#8) ∧ i = j := by
  unfold checkFields
  cases a <;> cases b <;> by_cases h1 : rsvField w = 0#2 <;> by_cases h2 : phField w = 0#2 <;>
    by_cases h3 : dataField w = 0#8 <;> simp [h1, h2, h3]

/-- Everything a successful decoding can be (R46). -/
theorem decode_cases {w : Word} {i : Instr} (h : decode w = .ok i) :
    (opField w = 0x1#4 ∧ rsvField w = 0#2 ∧ phField w = 0#2 ∧ dataField w = 0#8 ∧ i = .init) ∨
    (opField w = 0x2#4 ∧ rsvField w = 0#2 ∧ phField w = 0#2 ∧ i = .upds (dataField w)) ∨
    (opField w = 0x3#4 ∧ rsvField w = 0#2 ∧ phField w = 0#2 ∧ i = .updb (dataField w)) ∨
    (opField w = 0x4#4 ∧ rsvField w = 0#2 ∧ phField w = 0#2 ∧ dataField w = 0#8 ∧ i = .final) ∨
    (opField w = 0x5#4 ∧ rsvField w = 0#2 ∧
      i = .load ((dataField w).setWidth 7) (Phase.ofCode (phField w))) := by
  unfold decode at h
  split at h
  · rw [checkFields_ok] at h; simp_all
  split at h
  · rw [checkFields_ok] at h; simp_all
  split at h
  · rw [checkFields_ok] at h; simp_all
  split at h
  · rw [checkFields_ok] at h; simp_all
  split at h
  · rw [checkFields_ok] at h; simp_all
  · cases h

/-! The fields of each command's word (R39, R48). -/

@[simp] theorem opField_init : opField (encode .init) = 0x1#4 := by decide
@[simp] theorem rsvField_init : rsvField (encode .init) = 0#2 := by decide
@[simp] theorem phField_init : phField (encode .init) = 0#2 := by decide
@[simp] theorem dataField_init : dataField (encode .init) = 0#8 := by decide
@[simp] theorem opField_upds (d : Byte) : opField (encode (.upds d)) = 0x2#4 := by
  apply BitVec.eq_of_getLsbD_eq; intro i hi
  interval_cases i <;> simp [encode, opField]
@[simp] theorem rsvField_upds (d : Byte) : rsvField (encode (.upds d)) = 0#2 := by
  apply BitVec.eq_of_getLsbD_eq; intro i hi
  interval_cases i <;> simp [encode, rsvField]
@[simp] theorem phField_upds (d : Byte) : phField (encode (.upds d)) = 0#2 := by
  apply BitVec.eq_of_getLsbD_eq; intro i hi
  interval_cases i <;> simp [encode, phField]
@[simp] theorem dataField_upds (d : Byte) : dataField (encode (.upds d)) = d := by
  apply BitVec.eq_of_getLsbD_eq; intro i hi
  interval_cases i <;> simp [encode, dataField]
@[simp] theorem opField_updb (d : Byte) : opField (encode (.updb d)) = 0x3#4 := by
  apply BitVec.eq_of_getLsbD_eq; intro i hi
  interval_cases i <;> simp [encode, opField]
@[simp] theorem rsvField_updb (d : Byte) : rsvField (encode (.updb d)) = 0#2 := by
  apply BitVec.eq_of_getLsbD_eq; intro i hi
  interval_cases i <;> simp [encode, rsvField]
@[simp] theorem phField_updb (d : Byte) : phField (encode (.updb d)) = 0#2 := by
  apply BitVec.eq_of_getLsbD_eq; intro i hi
  interval_cases i <;> simp [encode, phField]
@[simp] theorem dataField_updb (d : Byte) : dataField (encode (.updb d)) = d := by
  apply BitVec.eq_of_getLsbD_eq; intro i hi
  interval_cases i <;> simp [encode, dataField]
@[simp] theorem opField_final : opField (encode .final) = 0x4#4 := by decide
@[simp] theorem rsvField_final : rsvField (encode .final) = 0#2 := by decide
@[simp] theorem phField_final : phField (encode .final) = 0#2 := by decide
@[simp] theorem dataField_final : dataField (encode .final) = 0#8 := by decide
@[simp] theorem opField_load (v : Crc) (p : Phase) : opField (encode (.load v p)) = 0x5#4 := by
  apply BitVec.eq_of_getLsbD_eq; intro i hi
  interval_cases i <;> simp [encode, opField]
@[simp] theorem rsvField_load (v : Crc) (p : Phase) : rsvField (encode (.load v p)) = 0#2 := by
  apply BitVec.eq_of_getLsbD_eq; intro i hi
  interval_cases i <;> simp [encode, rsvField]
@[simp] theorem phField_load (v : Crc) (p : Phase) : phField (encode (.load v p)) = p.code := by
  apply BitVec.eq_of_getLsbD_eq; intro i hi
  interval_cases i <;> simp [encode, phField]
@[simp] theorem dataField_load (v : Crc) (p : Phase) : dataField (encode (.load v p)) = v.setWidth 8 := by
  apply BitVec.eq_of_getLsbD_eq; intro i hi
  interval_cases i <;> simp [encode, dataField]

/-- A command that the legality check can reject has one word only, so the word it was decoded from is its encoding. -/
theorem encode_of_decode {w : Word} {i : Instr} (h : decode w = .ok i) (hl : ∀ v p, i ≠ .load v p) :
    encode i = w := by
  rcases decode_cases h with ⟨a, b, c, d, rfl⟩ | ⟨a, b, c, rfl⟩ | ⟨a, b, c, rfl⟩ | ⟨a, b, c, d, rfl⟩ | ⟨a, b, rfl⟩
  · apply word_ext_fields <;> simp [a, b, c, d]
  · apply word_ext_fields <;> simp [a, b, c]
  · apply word_ext_fields <;> simp [a, b, c]
  · apply word_ext_fields <;> simp [a, b, c, d]
  · exact absurd rfl (hl _ _)

end Sys2Proof
end

