-- ==== Sys2Proof/Laws/State.lean ====
section
/-! SUPPORT. What each named update of the state leaves in each field. -/

namespace Sys2Proof.Machine

@[simp] theorem writeResult_crc (r : Crc) (p : Phase) (s : State) : (writeResult r p s).crc = r := rfl
@[simp] theorem writeResult_phase (r : Crc) (p : Phase) (s : State) : (writeResult r p s).phase = p := rfl
@[simp] theorem writeResult_errcause (r : Crc) (p : Phase) (s : State) : (writeResult r p s).errcause = s.errcause := rfl
@[simp] theorem writeResult_port (r : Crc) (p : Phase) (s : State) : (writeResult r p s).port = s.port := rfl
@[simp] theorem writeResult_position (r : Crc) (p : Phase) (s : State) : (writeResult r p s).position = s.position := rfl
@[simp] theorem writeResult_rejected (r : Crc) (p : Phase) (s : State) : (writeResult r p s).rejected = s.rejected := rfl

@[simp] theorem clearError_crc (s : State) : (clearError s).crc = s.crc := rfl
@[simp] theorem clearError_phase (s : State) : (clearError s).phase = s.phase := rfl
@[simp] theorem clearError_errcause (s : State) : (clearError s).errcause = .none := rfl
@[simp] theorem clearError_port (s : State) : (clearError s).port = s.port := rfl
@[simp] theorem clearError_position (s : State) : (clearError s).position = s.position := rfl
@[simp] theorem clearError_rejected (s : State) : (clearError s).rejected = s.rejected := rfl

@[simp] theorem reject_crc (w : Word) (c : Cause) (s : State) : (reject w c s).crc = s.crc := rfl
@[simp] theorem reject_phase (w : Word) (c : Cause) (s : State) : (reject w c s).phase = s.phase := rfl
@[simp] theorem reject_errcause (w : Word) (c : Cause) (s : State) : (reject w c s).errcause = (if s.errcause = .none then recorded c else s.errcause) := rfl
@[simp] theorem reject_port (w : Word) (c : Cause) (s : State) : (reject w c s).port = s.port := rfl
@[simp] theorem reject_position (w : Word) (c : Cause) (s : State) : (reject w c s).position = s.position := rfl
@[simp] theorem reject_rejected (w : Word) (c : Cause) (s : State) : (reject w c s).rejected = s.rejected ++ [⟨s.position, w, c⟩] := rfl

@[simp] theorem resetBlock_crc (s : State) : (resetBlock s).crc = 0x00#7 := rfl
@[simp] theorem resetBlock_phase (s : State) : (resetBlock s).phase = .fresh := rfl
@[simp] theorem resetBlock_errcause (s : State) : (resetBlock s).errcause = .none := rfl
@[simp] theorem resetBlock_port (s : State) : (resetBlock s).port = s.port := rfl
@[simp] theorem resetBlock_position (s : State) : (resetBlock s).position = s.position := rfl
@[simp] theorem resetBlock_rejected (s : State) : (resetBlock s).rejected = s.rejected := rfl

@[simp] theorem takeWord_crc (rest : List HostAction) (s : State) : (takeWord rest s).crc = s.crc := rfl
@[simp] theorem takeWord_phase (rest : List HostAction) (s : State) : (takeWord rest s).phase = s.phase := rfl
@[simp] theorem takeWord_errcause (rest : List HostAction) (s : State) : (takeWord rest s).errcause = s.errcause := rfl
@[simp] theorem takeWord_port (rest : List HostAction) (s : State) : (takeWord rest s).port = rest := rfl
@[simp] theorem takeWord_position (rest : List HostAction) (s : State) : (takeWord rest s).position = s.position + 1 := rfl
@[simp] theorem takeWord_rejected (rest : List HostAction) (s : State) : (takeWord rest s).rejected = s.rejected := rfl

@[simp] theorem takeReset_crc (rest : List HostAction) (s : State) : (takeReset rest s).crc = s.crc := rfl
@[simp] theorem takeReset_phase (rest : List HostAction) (s : State) : (takeReset rest s).phase = s.phase := rfl
@[simp] theorem takeReset_errcause (rest : List HostAction) (s : State) : (takeReset rest s).errcause = s.errcause := rfl
@[simp] theorem takeReset_port (rest : List HostAction) (s : State) : (takeReset rest s).port = rest := rfl
@[simp] theorem takeReset_position (rest : List HostAction) (s : State) : (takeReset rest s).position = s.position := rfl
@[simp] theorem takeReset_rejected (rest : List HostAction) (s : State) : (takeReset rest s).rejected = s.rejected := rfl

@[simp] theorem offering_crc (s : State) (acts : List HostAction) : (s.offering acts).crc = s.crc := rfl
@[simp] theorem offering_phase (s : State) (acts : List HostAction) : (s.offering acts).phase = s.phase := rfl
@[simp] theorem offering_errcause (s : State) (acts : List HostAction) : (s.offering acts).errcause = s.errcause := rfl
@[simp] theorem offering_port (s : State) (acts : List HostAction) : (s.offering acts).port = acts := rfl
@[simp] theorem offering_position (s : State) (acts : List HostAction) : (s.offering acts).position = s.position := rfl
@[simp] theorem offering_rejected (s : State) (acts : List HostAction) : (s.offering acts).rejected = s.rejected := rfl

@[simp] theorem withFetchWord_crc (s : State) (n w : Nat) : (s.withFetchWord n w).crc = s.crc := rfl
@[simp] theorem withFetchWord_phase (s : State) (n w : Nat) : (s.withFetchWord n w).phase = s.phase := rfl
@[simp] theorem withFetchWord_errcause (s : State) (n w : Nat) : (s.withFetchWord n w).errcause = s.errcause := rfl
@[simp] theorem withFetchWord_port (s : State) (n w : Nat) : (s.withFetchWord n w).port = .command (tableWord n w) :: s.port := rfl
@[simp] theorem withFetchWord_position (s : State) (n w : Nat) : (s.withFetchWord n w).position = s.position := rfl
@[simp] theorem withFetchWord_rejected (s : State) (n w : Nat) : (s.withFetchWord n w).rejected = s.rejected := rfl

@[simp] theorem registers_mk (r : Crc) (p : Phase) (e : ErrCause) (a : List HostAction) (n : Nat) (l : List Rejection) :
    State.registers ⟨r, p, e, a, n, l⟩ = ⟨r, p, e⟩ := rfl
@[simp] theorem registers_offering (s : State) (acts : List HostAction) : (s.offering acts).registers = s.registers := rfl
@[simp] theorem registers_takeWord (rest : List HostAction) (s : State) : (takeWord rest s).registers = s.registers := rfl
@[simp] theorem registers_resetBlock (s : State) : (resetBlock s).registers = ⟨0x00#7, .fresh, .none⟩ := rfl
@[simp] theorem offering_offering (s : State) (a b : List HostAction) : (s.offering a).offering b = s.offering b := rfl

/-- Taking the word from the port and rejecting it is `afterRejection`. -/
theorem reject_takeWord (w : Word) (c : Cause) (rest : List HostAction) (s : State) :
    reject w c (takeWord rest s) = s.afterRejection rest w c := by
  unfold reject State.afterRejection takeWord
  rcases s with ⟨_, _, e, _, _, _⟩
  cases e <;> cases c <;> rfl

/-- The outputs are a function of the three registers. -/
theorem outputs_eq_of_registers {s t : State} (h : s.registers = t.registers) : outputs s = outputs t := by
  rcases s with ⟨_, _, _, _, _, _⟩
  rcases t with ⟨_, _, _, _, _, _⟩
  simp only [registers_mk, Registers.mk.injEq] at h
  obtain ⟨rfl, rfl, rfl⟩ := h
  rfl

end Sys2Proof.Machine
end

