-- ==== Sys2Proof/Laws/Step.lean ====
section
/-! SUPPORT. What each shared operation, a command and a step can do, said once. -/

namespace Sys2Proof.Machine

/-! ### One command -/

/-- The state a command leaves when the legality check lets it through (R52, R53, R55, R63, R66). -/
def performed : Instr → State → State
  | .init, s => clearError (writeResult 0x00#7 .fresh s)
  | .upds d, s => writeResult (updsByte s.crc d) .single s
  | .updb d, s => writeResult (updbByte s.crc d) .buffer s
  | .final, s => writeResult (finalRounds s.crc) .final s
  | .load v p, s => writeResult v p s

/-- A command does one of two things: it is performed, or it is rejected (R75). -/
theorem exec_eq (i : Instr) (s : State) :
    exec i s = (match check s.phase i with
      | none => .next (performed i s)
      | some c => .next (reject (encode i) c s)) := by
  cases i <;> rfl

theorem exec_of_ok {i : Instr} {s : State} (h : check s.phase i = none) : exec i s = .next (performed i s) := by
  rw [exec_eq, h]

theorem exec_of_rejected {i : Instr} {s : State} {c : Cause} (h : check s.phase i = some c) :
    exec i s = .next (reject (encode i) c s) := by
  rw [exec_eq, h]

/-- Everything a command can leave. -/
theorem exec_cases {i : Instr} {s t : State} (h : exec i s = .next t) :
    (check s.phase i = none ∧ t = performed i s) ∨ ∃ c, check s.phase i = some c ∧ t = reject (encode i) c s := by
  rw [exec_eq] at h
  split at h
  · rename_i hc; exact .inl ⟨hc, (Host.Outcome.next.inj h).symm⟩
  · rename_i c hc; exact .inr ⟨c, hc, (Host.Outcome.next.inj h).symm⟩

@[simp] theorem performed_port (i : Instr) (s : State) : (performed i s).port = s.port := by cases i <;> rfl
@[simp] theorem performed_position (i : Instr) (s : State) : (performed i s).position = s.position := by cases i <;> rfl
@[simp] theorem performed_rejected (i : Instr) (s : State) : (performed i s).rejected = s.rejected := by cases i <;> rfl

/-- LOAD is never rejected, so a command that is has one word only. -/
theorem not_load_of_check {p : Phase} {i : Instr} {c : Cause} (h : check p i = some c) :
    ∀ v q, i ≠ .load v q := by
  rintro v q rfl
  cases p <;> simp [check] at h

/-- The check never answers ILLEGAL (R82). -/
theorem check_ne_illegal {p : Phase} {i : Instr} {c : Cause} (h : check p i = some c) : c ≠ .illegal := by
  cases i <;> cases p <;> simp [check] at h <;> subst h <;> simp

@[simp] theorem recorded_ne_none (c : Cause) : recorded c ≠ .none := by cases c <;> simp [recorded]

/-! ### One accepted word -/

/-- An accepted word is rejected for its verdict, or performed (R75). -/
theorem acceptWord_eq (w : Word) (s : State) :
    acceptWord w s = (match verdict w s with
      | some c => .next (reject w c s)
      | none => match decode w with
        | .ok i => .next (performed i s)
        | .error _ => .next s) := by
  unfold acceptWord verdict
  cases hd : decode w with
  | error e => rfl
  | ok i =>
    simp only [exec_eq]
    cases hc : check s.phase i with
    | none => rfl
    | some c => simp only [encode_of_decode hd (not_load_of_check hc)]

/-- Everything an accepted word can leave. -/
theorem acceptWord_cases (w : Word) (s : State) :
    (∃ c, verdict w s = some c ∧ acceptWord w s = .next (reject w c s)) ∨
    (∃ i, decode w = .ok i ∧ verdict w s = none ∧ check s.phase i = none ∧
      acceptWord w s = .next (performed i s)) := by
  rw [acceptWord_eq]
  cases hv : verdict w s with
  | some c => exact .inl ⟨c, rfl, rfl⟩
  | none =>
    unfold verdict at hv
    cases hd : decode w with
    | error e => rw [hd] at hv; cases hv
    | ok i => rw [hd] at hv; exact .inr ⟨i, rfl, rfl, hv, rfl⟩

/-- The verdict looks at the word and at PHASE alone. -/
theorem verdict_congr {w : Word} {s t : State} (h : s.phase = t.phase) : verdict w s = verdict w t := by
  unfold verdict; rw [h]

/-- A word accepted in any PHASE is 0x1000 if it decodes to INIT. -/
theorem word_of_init {w : Word} (h : decode w = .ok .init) : w = 0x1000#16 :=
  (encode_of_decode h (by simp)).symm

/-! ### One step -/

theorem step_of_idle {s : State} (h : s.port = []) : step s = .next s := by simp [step, nextMove, h]

theorem step_of_command {s : State} {w : Word} {rest : List HostAction} (h : s.port = .command w :: rest) :
    step s = acceptWord w (takeWord rest s) := by simp [step, nextMove, h]

theorem step_of_reset {s : State} {rest : List HostAction} (h : s.port = .reset :: rest) :
    step s = .next (resetBlock (takeReset rest s)) := by simp [step, nextMove, h]

theorem step_of_resetDuring {s : State} {w : Word} {rest : List HostAction} (h : s.port = .resetDuring w :: rest) :
    step s = .next (resetBlock (takeWord rest s)) := by simp [step, nextMove, h]

/-- Everything a step can do. -/
theorem step_cases (s : State) :
    (s.port = [] ∧ step s = .next s) ∨
    (∃ rest, s.port = .reset :: rest ∧ step s = .next (resetBlock (takeReset rest s))) ∨
    (∃ w rest, s.port = .resetDuring w :: rest ∧ step s = .next (resetBlock (takeWord rest s))) ∨
    (∃ w rest c, s.port = .command w :: rest ∧ verdict w s = some c ∧
      step s = .next (s.afterRejection rest w c)) ∨
    (∃ w rest i, s.port = .command w :: rest ∧ decode w = .ok i ∧ verdict w s = none ∧ check s.phase i = none ∧
      step s = .next (performed i (takeWord rest s))) := by
  cases hp : s.port with
  | nil => exact .inl ⟨rfl, step_of_idle hp⟩
  | cons a rest =>
    cases a with
    | reset => exact .inr (.inl ⟨rest, rfl, step_of_reset hp⟩)
    | resetDuring w => exact .inr (.inr (.inl ⟨w, rest, rfl, step_of_resetDuring hp⟩))
    | command w =>
      have hv : verdict w (takeWord rest s) = verdict w s := verdict_congr rfl
      rcases acceptWord_cases w (takeWord rest s) with ⟨c, h1, h2⟩ | ⟨i, h0, h1, h2, h3⟩
      · refine .inr (.inr (.inr (.inl ⟨w, rest, c, rfl, hv ▸ h1, ?_⟩)))
        rw [step_of_command hp, h2, reject_takeWord]
      · exact .inr (.inr (.inr (.inr ⟨w, rest, i, rfl, h0, hv ▸ h1, h2, by rw [step_of_command hp, h3]⟩)))

/-- The step looks at the first action of the port only, and leaves the others. -/
theorem step_cons (s : State) (a : HostAction) (rest : List HostAction) :
    ∃ t : State, t.port = [] ∧ step (s.offering [a]) = .next t ∧ step (s.offering (a :: rest)) = .next (t.offering rest) := by
  cases a with
  | reset => exact ⟨resetBlock (takeReset [] (s.offering [.reset])), rfl, rfl, rfl⟩
  | resetDuring w => exact ⟨resetBlock (takeWord [] (s.offering [.resetDuring w])), rfl, rfl, rfl⟩
  | command w =>
    rw [step_of_command (s := s.offering [.command w]) rfl, step_of_command (s := s.offering (.command w :: rest)) rfl,
      acceptWord_eq, acceptWord_eq, verdict_congr (w := w) (s := takeWord [] (s.offering [.command w])) (t := s) rfl,
      verdict_congr (w := w) (s := takeWord rest (s.offering (.command w :: rest))) (t := s) rfl]
    cases verdict w s with
    | some c => exact ⟨_, rfl, rfl, rfl⟩
    | none =>
      cases decode w with
      | error e => exact ⟨_, rfl, rfl, rfl⟩
      | ok i => exact ⟨_, by simp, rfl, by cases i <;> rfl⟩

/-! ### Runs -/

/-- A run with nothing at the port takes no step. -/
@[simp] theorem runWords_nil (s : State) : runWords [] s = .next (s.offering []) := rfl

/-- A run takes the step of its first word, and then runs the others. -/
theorem runWords_cons (w : Word) (ws : List Word) (s : State) :
    ∃ t : State, t.port = [] ∧ step (s.offering [.command w]) = .next t ∧ runWords (w :: ws) s = runWords ws t := by
  obtain ⟨t, h0, h1, h2⟩ := step_cons s (.command w) (ws.map .command)
  refine ⟨t, h0, h1, ?_⟩
  have h3 : Sys2Proof.core.step (s.offering (List.map HostAction.command (w :: ws))) = .next (t.offering (ws.map .command)) := h2
  simp only [runWords, List.length_cons, Host.Core.run]
  rw [h3]

end Sys2Proof.Machine
end

