-- ==== Sys2Proof/Laws/Clocked.lean ====
section
/-! SUPPORT. What one edge of the clock-level view can do. -/

namespace Sys2Proof.Machine

/-- Every latency is at least one cycle (R101). -/
theorem latency_pos (w : Word) (s : State) : 1 ≤ latency w s := by
  unfold latency Config.latSimple Config.latUpd Config.latFinal
  split
  · omega
  · split <;> omega

/-- A host action at the pins is one step of the machine, which leaves nothing at the port. -/
theorem performs_eq (c : Clocked) (a : HostAction) (after : State → Clocked) :
    ∃ t, step (c.core.offering [a]) = .next t ∧ t.port = [] ∧ c.performs a after = .next (after t) := by
  obtain ⟨t, h0, h1, -⟩ := step_cons c.core a []
  exact ⟨t, h1, h0, by simp [Clocked.performs, h1]⟩

/-- A host that has kept its offer has a move, and the state after the edge is the state before it or one step further. -/
theorem tick_cases (c : Clocked) (p : Pins) (h : c.held p = true) :
    ∃ c', c.tick p = .next c' ∧ (c'.core = c.core ∨ ∃ a, step (c.core.offering [a]) = .next c'.core) := by
  unfold Clocked.tick
  simp only [h, Bool.not_true, Bool.false_eq_true, if_false]
  split
  · cases c.inFlight with
    | some f =>
      obtain ⟨t, h1, -, h3⟩ := performs_eq c (.resetDuring f.word) (fun s => ⟨s, false, none, p.offer⟩)
      exact ⟨_, h3, .inr ⟨_, h1⟩⟩
    | none =>
      obtain ⟨t, h1, -, h3⟩ := performs_eq c .reset (fun s => ⟨s, false, none, p.offer⟩)
      exact ⟨_, h3, .inr ⟨_, h1⟩⟩
  · cases c.inFlight with
    | some f =>
      obtain ⟨t, h1, -, h3⟩ := performs_eq c (.command f.word) (fun s => ⟨s, true, none, p.offer⟩)
      by_cases hr : f.remaining ≤ 1
      · exact ⟨_, by simpa only [hr, if_true] using h3, .inr ⟨_, h1⟩⟩
      · refine ⟨⟨c.core, c.ready, some ⟨f.word, f.remaining - 1⟩, p.offer⟩, by simp only [hr, if_false], .inl rfl⟩
    | none =>
      by_cases hr : c.ready = true <;> by_cases hv : p.valid = true <;> simp [hr, hv]

/-- With a command in progress and a host that offers nothing, the edges run through to the end of the command. -/
theorem run_quiet (w : Word) (n : Nat) (c : Clocked) (f : InFlight) (hf : c.inFlight = some f)
    (hn : f.remaining = n + 1) (ho : c.offered = none) :
    ∃ c', Clocked.run (List.replicate (n + 1) ⟨false, false, w⟩) c = .next c' := by
  induction n generalizing c f with
  | zero =>
    obtain ⟨t, -, -, h3⟩ := performs_eq c (.command f.word) (fun s => ⟨s, true, none, Pins.offer ⟨false, false, w⟩⟩)
    refine ⟨⟨t, true, none, Pins.offer ⟨false, false, w⟩⟩, ?_⟩
    simp only [List.replicate, Clocked.run, Clocked.tick, Clocked.held, ho, hf, hn]
    simp [h3]
  | succ n ih =>
    rw [List.replicate_succ]
    simp only [Clocked.run, Clocked.tick, Clocked.held, ho, hf, hn]
    simp
    exact ih _ ⟨f.word, n + 1⟩ rfl rfl rfl

end Sys2Proof.Machine
end

