-- ==== Sys2Proof/Laws/PerInstr.lean ====
section
/-! SUPPORT. One statement for each command as syntax: its word has zeros in every field the command does not use, and the
OP of its row (R39, R40, R43). -/

namespace Sys2Proof.Laws.Fields

/-- The fields of a command's word (R39 to R43). -/
def Statement (i : Instr) : Prop :=
  rsvField (encode i) = 0#2 ∧
    match i with
    | .init => opField (encode i) = 0x1#4 ∧ phField (encode i) = 0#2 ∧ dataField (encode i) = 0#8
    | .upds d => opField (encode i) = 0x2#4 ∧ phField (encode i) = 0#2 ∧ dataField (encode i) = d
    | .updb d => opField (encode i) = 0x3#4 ∧ phField (encode i) = 0#2 ∧ dataField (encode i) = d
    | .final => opField (encode i) = 0x4#4 ∧ phField (encode i) = 0#2 ∧ dataField (encode i) = 0#8
    | .load v p => opField (encode i) = 0x5#4 ∧ phField (encode i) = p.code ∧ dataField (encode i) = v.setWidth 8

theorem init : Statement .init := by simp [Statement]
theorem upds (d : Byte) : Statement (.upds d) := by simp [Statement]
theorem updb (d : Byte) : Statement (.updb d) := by simp [Statement]
theorem final : Statement .final := by simp [Statement]
theorem load (v : Crc) (p : Phase) : Statement (.load v p) := by simp [Statement]

end Sys2Proof.Laws.Fields
end

