-- ==== Sys2Proof/Tests/Slice0.lean ====
section
/-! SUPPORT. Tests: words and values taken from 95_test_vectors.md, 30_encoding.md and the examples of the rules, and for each
statement with hypotheses a witness that they can be met together. -/

set_option maxRecDepth 20000

open Sys2Proof Sys2Proof.Machine

namespace Sys2Proof.Tests

/-- The next state, where there is one. -/
def after (o : Host.Outcome State Fault Refusal) : Option State :=
  match o with
  | .next s => some s
  | .fault _ => none
  | .refused _ => none

/-- A state with these registers, one word at the port, and nothing else. -/
def at1 (r : Crc) (p : Phase) (e : ErrCause) (w : Word) : State := ⟨r, p, e, [.command w], 0, []⟩

/-- The registers after one step from such a state. -/
def regs (r : Crc) (p : Phase) (e : ErrCause) (w : Word) : Option Registers := (after (step (at1 r p e w))).map State.registers

/-- Whether a word decodes to no command. -/
def illegal (w : Word) : Bool :=
  match decode w with
  | .ok _ => false
  | .error _ => true

/-- The table T of 95_test_vectors.md V3, rows 0x to 3x. -/
def tableT0 : List Nat :=
  [0x00, 0x37, 0x6E, 0x59, 0x6B, 0x5C, 0x05, 0x32, 0x61, 0x56, 0x0F, 0x38, 0x0A, 0x3D, 0x64, 0x53,
   0x75, 0x42, 0x1B, 0x2C, 0x1E, 0x29, 0x70, 0x47, 0x14, 0x23, 0x7A, 0x4D, 0x7F, 0x48, 0x11, 0x26,
   0x5D, 0x6A, 0x33, 0x04, 0x36, 0x01, 0x58, 0x6F, 0x3C, 0x0B, 0x52, 0x65, 0x57, 0x60, 0x39, 0x0E,
   0x28, 0x1F, 0x46, 0x71, 0x43, 0x74, 0x2D, 0x1A, 0x49, 0x7E, 0x27, 0x10, 0x22, 0x15, 0x4C, 0x7B]

/-- The table T of 95_test_vectors.md V3, rows 4x to 7x. -/
def tableT1 : List Nat :=
  [0x0D, 0x3A, 0x63, 0x54, 0x66, 0x51, 0x08, 0x3F, 0x6C, 0x5B, 0x02, 0x35, 0x07, 0x30, 0x69, 0x5E,
   0x78, 0x4F, 0x16, 0x21, 0x13, 0x24, 0x7D, 0x4A, 0x19, 0x2E, 0x77, 0x40, 0x72, 0x45, 0x1C, 0x2B,
   0x50, 0x67, 0x3E, 0x09, 0x3B, 0x0C, 0x55, 0x62, 0x31, 0x06, 0x5F, 0x68, 0x5A, 0x6D, 0x34, 0x03,
   0x25, 0x12, 0x4B, 0x7C, 0x4E, 0x79, 0x20, 0x17, 0x44, 0x73, 0x2A, 0x1D, 0x2F, 0x18, 0x41, 0x76]

/-- The table T of 95_test_vectors.md V3, rows 8x to Bx. -/
def tableT2 : List Nat :=
  [0x1A, 0x2D, 0x74, 0x43, 0x71, 0x46, 0x1F, 0x28, 0x7B, 0x4C, 0x15, 0x22, 0x10, 0x27, 0x7E, 0x49,
   0x6F, 0x58, 0x01, 0x36, 0x04, 0x33, 0x6A, 0x5D, 0x0E, 0x39, 0x60, 0x57, 0x65, 0x52, 0x0B, 0x3C,
   0x47, 0x70, 0x29, 0x1E, 0x2C, 0x1B, 0x42, 0x75, 0x26, 0x11, 0x48, 0x7F, 0x4D, 0x7A, 0x23, 0x14,
   0x32, 0x05, 0x5C, 0x6B, 0x59, 0x6E, 0x37, 0x00, 0x53, 0x64, 0x3D, 0x0A, 0x38, 0x0F, 0x56, 0x61]

/-- The table T of 95_test_vectors.md V3, rows Cx to Fx. -/
def tableT3 : List Nat :=
  [0x17, 0x20, 0x79, 0x4E, 0x7C, 0x4B, 0x12, 0x25, 0x76, 0x41, 0x18, 0x2F, 0x1D, 0x2A, 0x73, 0x44,
   0x62, 0x55, 0x0C, 0x3B, 0x09, 0x3E, 0x67, 0x50, 0x03, 0x34, 0x6D, 0x5A, 0x68, 0x5F, 0x06, 0x31,
   0x4A, 0x7D, 0x24, 0x13, 0x21, 0x16, 0x4F, 0x78, 0x2B, 0x1C, 0x45, 0x72, 0x40, 0x77, 0x2E, 0x19,
   0x3F, 0x08, 0x51, 0x66, 0x54, 0x63, 0x3A, 0x0D, 0x5E, 0x69, 0x30, 0x07, 0x35, 0x02, 0x5B, 0x6C]

/-- The table UPDB(r, 0) of 95_test_vectors.md V4, rows 0x to 3x. -/
def tableZ0 : List Nat :=
  [0x00, 0x6E, 0x6B, 0x05, 0x61, 0x0F, 0x0A, 0x64, 0x75, 0x1B, 0x1E, 0x70, 0x14, 0x7A, 0x7F, 0x11,
   0x5D, 0x33, 0x36, 0x58, 0x3C, 0x52, 0x57, 0x39, 0x28, 0x46, 0x43, 0x2D, 0x49, 0x27, 0x22, 0x4C,
   0x0D, 0x63, 0x66, 0x08, 0x6C, 0x02, 0x07, 0x69, 0x78, 0x16, 0x13, 0x7D, 0x19, 0x77, 0x72, 0x1C,
   0x50, 0x3E, 0x3B, 0x55, 0x31, 0x5F, 0x5A, 0x34, 0x25, 0x4B, 0x4E, 0x20, 0x44, 0x2A, 0x2F, 0x41]

/-- The table UPDB(r, 0) of 95_test_vectors.md V4, rows 4x to 7x. -/
def tableZ1 : List Nat :=
  [0x1A, 0x74, 0x71, 0x1F, 0x7B, 0x15, 0x10, 0x7E, 0x6F, 0x01, 0x04, 0x6A, 0x0E, 0x60, 0x65, 0x0B,
   0x47, 0x29, 0x2C, 0x42, 0x26, 0x48, 0x4D, 0x23, 0x32, 0x5C, 0x59, 0x37, 0x53, 0x3D, 0x38, 0x56,
   0x17, 0x79, 0x7C, 0x12, 0x76, 0x18, 0x1D, 0x73, 0x62, 0x0C, 0x09, 0x67, 0x03, 0x6D, 0x68, 0x06,
   0x4A, 0x24, 0x21, 0x4F, 0x2B, 0x45, 0x40, 0x2E, 0x3F, 0x51, 0x54, 0x3A, 0x5E, 0x30, 0x35, 0x5B]

/-! ### Well-formedness: one ill-formed word for each check of R43 -/

/-- OP 0x0 is unassigned. -/
theorem test_ill_formed_op_zero : wellFormedWord 0x0000#16 = false ∧ illegal 0x0000#16 = true := by decide
/-- OP 0x6 is unassigned. -/
theorem test_ill_formed_op_six : wellFormedWord 0x6000#16 = false ∧ illegal 0x6000#16 = true := by decide
/-- OP 0xF is unassigned. -/
theorem test_ill_formed_op_f : wellFormedWord 0xF000#16 = false ∧ illegal 0xF000#16 = true := by decide
/-- RSV is not 0. -/
theorem test_ill_formed_rsv : wellFormedWord 0x2431#16 = false ∧ illegal 0x2431#16 = true := by decide
/-- RSV is not 0, in LOAD. -/
theorem test_ill_formed_load_rsv : wellFormedWord 0x5C00#16 = false ∧ illegal 0x5C00#16 = true := by decide
/-- PH is not 0, in INIT. -/
theorem test_ill_formed_init_ph : wellFormedWord 0x1100#16 = false ∧ illegal 0x1100#16 = true := by decide
/-- DATA is not 0, in INIT. -/
theorem test_ill_formed_init_data : wellFormedWord 0x1001#16 = false ∧ illegal 0x1001#16 = true := by decide
/-- PH is not 0, in UPDS. -/
theorem test_ill_formed_upds_ph : wellFormedWord 0x2131#16 = false ∧ illegal 0x2131#16 = true := by decide
/-- PH is not 0, in UPDB. -/
theorem test_ill_formed_updb_ph : wellFormedWord 0x3200#16 = false ∧ illegal 0x3200#16 = true := by decide
/-- PH is not 0, in FINAL. -/
theorem test_ill_formed_final_ph : wellFormedWord 0x4100#16 = false ∧ illegal 0x4100#16 = true := by decide
/-- DATA is not 0, in FINAL. -/
theorem test_ill_formed_final_data : wellFormedWord 0x4080#16 = false ∧ illegal 0x4080#16 = true := by decide

/-- The words of R50 are well formed. -/
theorem test_well_formed : [0x1000#16, 0x2031#16, 0x30FF#16, 0x4000#16, 0x5223#16, 0x51FF#16].all wellFormedWord = true := by
  decide

/-- The reasons a word is refused for: one word for each name. -/
theorem test_decode_reasons : decode 0x6000#16 = .error .unassignedOp ∧ decode 0x2431#16 = .error .reservedNotZero ∧
    decode 0x2131#16 = .error .phaseNotZero ∧ decode 0x4080#16 = .error .dataNotZero := by
  refine ⟨?_, ?_, ?_, ?_⟩ <;> rfl

/-! ### Decoding: words written out from R39 and R48 -/

/-- OP 0001, RSV 00, PH 00, DATA 00000000. -/
theorem test_decode_init : decode 0b0001000000000000#16 = .ok .init := by rfl
/-- OP 0010, RSV 00, PH 00, DATA 00110001: `UPDS '1'`. -/
theorem test_decode_upds : decode 0b0010000000110001#16 = .ok (.upds 0x31#8) := by rfl
/-- OP 0011, RSV 00, PH 00, DATA 11111111: `UPDB 0xFF`. -/
theorem test_decode_updb : decode 0b0011000011111111#16 = .ok (.updb 0xFF#8) := by rfl
/-- OP 0100, RSV 00, PH 00, DATA 00000000. -/
theorem test_decode_final : decode 0b0100000000000000#16 = .ok .final := by rfl
/-- OP 0101, RSV 00, PH 10, DATA 10100011: `LOAD 0xA3, BUFFER`, its DATA[7] ignored (V7). -/
theorem test_decode_load : decode 0b0101001010100011#16 = .ok (.load 0x23#7 .buffer) := by rfl
/-- OP 0101, RSV 00, PH 11, DATA 11111111 (V9). -/
theorem test_decode_load_final : decode 0x53FF#16 = .ok (.load 0x7F#7 .final) := by rfl
/-- The rows of the opcode table, with operand bits of zero. -/
theorem test_table_words : [0x1000, 0x2000, 0x3000, 0x4000, 0x5000].map (decodeTableWord 16) =
    [some .init, some (.upds 0x00#8), some (.updb 0x00#8), some .final, some (.load 0x00#7 .fresh)] := by decide
/-- Each row's word runs as the first command after reset, with the phase of R74. -/
theorem test_first_after_reset : [0x1000, 0x2000, 0x3000, 0x4000, 0x5100].map
      (fun w => (after (step (State.reset.withFetchWord 16 w))).map (fun s => (s.phase, s.position, s.rejected.length))) =
    [some (.fresh, 1, 0), some (.single, 1, 0), some (.buffer, 1, 0), some (.final, 1, 0), some (.single, 1, 0)] := by decide

/-! ### The arithmetic -/

theorem test_tableT0 : (List.range 64).map (fun v => (updsByte 0x00#7 (BitVec.ofNat 8 (0 + v))).toNat) = tableT0 := by decide
theorem test_tableT1 : (List.range 64).map (fun v => (updsByte 0x00#7 (BitVec.ofNat 8 (64 + v))).toNat) = tableT1 := by decide
theorem test_tableT2 : (List.range 64).map (fun v => (updsByte 0x00#7 (BitVec.ofNat 8 (128 + v))).toNat) = tableT2 := by decide
theorem test_tableT3 : (List.range 64).map (fun v => (updsByte 0x00#7 (BitVec.ofNat 8 (192 + v))).toNat) = tableT3 := by decide
theorem test_tableZ0 : (List.range 64).map (fun r => (updbByte (BitVec.ofNat 7 (0 + r)) 0x00#8).toNat) = tableZ0 := by decide
theorem test_tableZ1 : (List.range 64).map (fun r => (updbByte (BitVec.ofNat 7 (64 + r)) 0x00#8).toNat) = tableZ1 := by decide

/-- The bit trace of UPDS 0x31 from 0 (V1), its last four rounds. -/
theorem test_trace_upds : [stepS 0x59#7 false, stepS 0x05#7 false, stepS 0x0A#7 false, stepS 0x14#7 true] =
    [0x05#7, 0x0A#7, 0x14#7, 0x1F#7] := by decide
/-- The bit trace of FINAL from 0x31 (V6), rounds 1, 2, 4 and 7. -/
theorem test_trace_final : [stepB 0x31#7 false, stepB 0x62#7 false, stepB 0x51#7 false, stepB 0x54#7 false] =
    [0x62#7, 0x73#7, 0x15#7, 0x1F#7] := by decide
/-- Rows of V5 in which UPDS and UPDB differ. -/
theorem test_upds_corners : [updsByte 0x7F#7 0xFF#8, updsByte 0x55#7 0xAA#8, updsByte 0x12#7 0x34#8, updsByte 0x3F#7 0x80#8] =
    [0x37#7, 0x00#7, 0x75#7, 0x5B#7] := by decide
theorem test_updb_corners : [updbByte 0x7F#7 0xFF#8, updbByte 0x55#7 0xAA#8, updbByte 0x12#7 0x34#8, updbByte 0x3F#7 0x80#8] =
    [0x13#7, 0x55#7, 0x02#7, 0x76#7] := by decide
/-- FINAL vectors of V6. -/
theorem test_final_vectors : [0x01#7, 0x40#7, 0x7F#7, 0x6D#7, 0x23#7, 0x43#7, 0x55#7].map finalRounds =
    [0x37#7, 0x0D#7, 0x76#7, 0x6D#7, 0x04#7, 0x54#7, 0x24#7] := by decide
/-- The source's own algorithms on values the spec tabulates (V5, V6), at three working widths. -/
theorem test_source : [8, 16, 32].map (fun W => (sourceSBU W 0xFF 0xFF, sourceBUByte W 0xFF 0xFF, sourceFinalize W 0xFF)) =
    [(0x37, 0x13, 0x76), (0x37, 0x13, 0x76), (0x37, 0x13, 0x76)] := by decide

/-! ### One command, from each kind of state (V7, V8) -/

theorem test_init : regs 0x54#7 .final .reuse 0x1000#16 = some ⟨0x00#7, .fresh, .none⟩ := by decide
theorem test_load_keeps_errcause : regs 0x11#7 .single .mix 0x537F#16 = some ⟨0x7F#7, .final, .mix⟩ := by decide
theorem test_load_ignores_bit7 : regs 0x11#7 .buffer .none 0x51FF#16 = some ⟨0x7F#7, .single, .none⟩ := by decide
theorem test_upds_performed : regs 0x55#7 .single .none 0x20AA#16 = some ⟨0x00#7, .single, .none⟩ := by decide
theorem test_upds_mix : regs 0x55#7 .buffer .none 0x20AA#16 = some ⟨0x55#7, .buffer, .mix⟩ := by decide
theorem test_updb_performed : regs 0x55#7 .fresh .none 0x30AA#16 = some ⟨0x55#7, .buffer, .none⟩ := by decide
/-- A later REUSE leaves an earlier MIX in place (V8). -/
theorem test_updb_sticky : regs 0x55#7 .final .mix 0x3000#16 = some ⟨0x55#7, .final, .mix⟩ := by decide
theorem test_final_performed : regs 0x55#7 .buffer .none 0x4000#16 = some ⟨0x24#7, .final, .none⟩ := by decide
theorem test_final_mix : regs 0x55#7 .single .none 0x4000#16 = some ⟨0x55#7, .single, .mix⟩ := by decide
/-- P5, command 2: the word 0x0000 is rejected and recorded. -/
theorem test_illegal : (after (step (at1 0x00#7 .fresh .none 0x0000#16))).map (fun s => (s.errcause, s.rejected)) =
    some (.illegal, [⟨1, 0x0000#16, .illegal⟩]) := by decide
/-- status_out in V7 and P3. -/
theorem test_status : (outputs (at1 0x7F#7 .final .mix 0#16), outputs (at1 0x00#7 .final .reuse 0#16)) =
    (⟨0x7F#8, 0x1B#8, true⟩, ⟨0x00#8, 0x1F#8, true⟩) := by decide
/-- The host's reset in mid-command: the registers of R92, one word gone, the observation kept. -/
theorem test_reset_during : after (step ⟨0x55#7, .single, .mix, [.resetDuring 0x20AA#16], 3, [⟨2, 0x4000#16, .mix⟩]⟩) =
    some ⟨0x00#7, .fresh, .none, [], 4, [⟨2, 0x4000#16, .mix⟩]⟩ := by decide
/-- With nothing at the port the state stays (R91). -/
theorem test_idle : after (step State.reset) = some State.reset := by decide

/-! ### Assembler lines (R48, R49, R50) -/

theorem test_asm_upds : assembleText ['u', 'p', 'd', 's', ' ', '\'', '1', '\'', ' ', ';', ' ', 'x'] = some [0x2031#16] := by decide
theorem test_asm_load : assembleText ['L', 'O', 'A', 'D', ' ', '0', 'x', '2', '3', ',', ' ', 'B', 'u', 'f', 'f', 'e', 'r'] =
    some [0x5223#16] := by decide
theorem test_asm_load_wide : assembleText ['L', 'O', 'A', 'D', ' ', '2', '5', '5', ',', '1'] = some [0x51FF#16] := by decide
theorem test_asm_crcb : assembleText ['C', 'R', 'C', 'B', ' ', '"', 'A', ';', '"'] =
    some [0x1000#16, 0x3041#16, 0x303B#16, 0x4000#16] := by decide
/-- P4: `CRCB "0x01, 0x02"`, a list of bytes inside the quotes. -/
theorem test_asm_quoted_list : assembleText ['C', 'R', 'C', 'B', ' ', '"', '0', 'x', '0', '1', ',', ' ', '0', 'x', '0', '2', '"'] =
    some [0x1000#16, 0x3001#16, 0x3002#16, 0x4000#16] := by decide
/-- P4: `CRCS "AB"`, and a quoted text of digits, which is its characters (R49, P1). -/
theorem test_asm_quoted_chars : (assembleText ['C', 'R', 'C', 'S', ' ', '"', 'A', 'B', '"'], assembleText ['B', 'U', 'F', 'U', 'P', 'D', ' ', '"', '1', '2', '"']) =
    (some [0x1000#16, 0x2041#16, 0x2042#16], some [0x3031#16, 0x3032#16]) := by decide
/-- The quoted text of one hexadecimal byte, the empty text, and a list with a number above 255 (log entry 14). -/
theorem test_asm_quoted_edges : (assembleText ['C', 'R', 'C', 'S', ' ', '"', '0', 'x', '8', '0', '"'], assembleText ['B', 'U', 'F', 'U', 'P', 'D', ' ', '"', '"'],
    assembleText ['C', 'R', 'C', 'S', ' ', '"', '2', '5', '6', ',', ' ', '1', '"']) = (some [0x1000#16, 0x2080#16], some [], none) := by decide
theorem test_asm_list : assembleText ['C', 'R', 'C', 'S', ' ', '0', 'x', '0', '1', ',', '2'] =
    some [0x1000#16, 0x2001#16, 0x2002#16] := by decide
theorem test_asm_sbu_fin : (assembleText ['S', 'B', 'U', ' ', '0', ',', '4', '9'], assembleText ['F', 'I', 'N', ' ', '3', '5']) =
    (some [0x5000#16, 0x2031#16], some [0x5223#16, 0x4000#16]) := by decide
/-- A byte outside 0..255, and an unknown phase. -/
theorem test_asm_refuses : (assembleText ['U', 'P', 'D', 'S', ' ', '2', '5', '6'],
    assembleText ['L', 'O', 'A', 'D', ' ', '0', ',', '4'], assembleText ['N', 'O', 'P']) = (none, none, none) := by decide

/-! ### The pins and the bit-serial divider -/

/-- The last cycle of UPDS 0xAA from 0x55: the writes and cmd_ready appear together. -/
theorem test_pins_complete : (match Clocked.tick ⟨⟨0x55#7, .fresh, .none, [], 0, []⟩, false, some ⟨0x20AA#16, 1⟩, none⟩ ⟨false, false, 0#16⟩ with
    | .next c => some (c.ready, c.inFlight, c.visible false)
    | .fault _ => none
    | .refused _ => none) = some (true, none, some ⟨0x00#8, 0x01#8, false⟩) := by decide
/-- rst in mid-command: nothing of it is performed, and cmd_ready is 0. -/
theorem test_pins_reset : (match Clocked.tick ⟨⟨0x55#7, .fresh, .mix, [], 0, []⟩, false, some ⟨0x20AA#16, 3⟩, none⟩ ⟨true, false, 0#16⟩ with
    | .next c => some (c.ready, c.inFlight, c.core.registers)
    | .fault _ => none
    | .refused _ => none) = some (false, none, ⟨0x00#7, .fresh, .none⟩) := by decide
/-- R100: the divider's partial register after four clocks of UPDS 0x31 (V1). -/
theorem test_divider : ((Divider.clocks 4 (.startUpds 0x00#7 0x31#8)).reg, (Divider.clocks 4 (.startUpds 0x00#7 0x31#8)).busy) =
    (0x59#7, true) := by decide

/-! ### Witnesses: states and operands that meet a statement's hypotheses together -/

/-- A sound clock-level state with cmd_ready = 1. -/
def idle : Clocked := ⟨State.reset, true, none, none⟩

theorem idle_sound : idle.Sound := by
  unfold Clocked.Sound
  exact ⟨fun _ => rfl, fun f h => by simp [idle] at h, rfl⟩

/-- That state when it has just accepted UPDS 0x31. -/
def accepted : Clocked := ⟨State.reset, false, some ⟨0x2031#16, latency 0x2031#16 State.reset⟩, none⟩

/-- UPDS 0x31 in progress with this many cycles left. -/
def busyFor (n : Nat) : Clocked := ⟨State.reset, false, some ⟨0x2031#16, n⟩, none⟩

theorem busyFor_sound (n : Nat) (h : 1 ≤ n) : (busyFor n).Sound := by
  unfold Clocked.Sound
  exact ⟨fun h' => by simp [busyFor] at h', fun f hf => by simp [busyFor] at hf; subst hf; exact h, rfl⟩

theorem idle_accepts : idle.tick ⟨false, true, 0x2031#16⟩ = .next accepted := by rfl

theorem witness_ResetGivesTheStateInitGives :
    (∃ s : State, ∃ rest, s.port = .reset :: rest) ∧ (∃ c : Clocked, ∃ p : Pins, c.held p = true ∧ p.rst = true) :=
  ⟨⟨⟨0x55#7, .final, .mix, [.reset], 0, []⟩, [], rfl⟩, ⟨accepted, ⟨true, false, 0#16⟩, rfl, rfl⟩⟩

theorem witness_OutputPortsShowTheRegisters : (∃ c : Clocked, c.ready = false) ∧ (∃ c : Clocked, c.ready = true) ∧ (∃ i, i < 7) :=
  ⟨⟨accepted, rfl⟩, ⟨{ accepted with ready := true }, rfl⟩, ⟨6, by decide⟩⟩

theorem witness_LoadRestoresWhatTheOutputsShowed : ∃ s u : State, ∃ rest,
    u.port = .command (0x5000#16 ||| (((statusOut s).extractLsb' 0 2).setWidth 16 <<< 8) ||| (crcOut s).setWidth 16) :: rest :=
  ⟨at1 0x3A#7 .single .none 0#16, at1 0x01#7 .buffer .mix 0x513A#16, [], by decide⟩

/-- Each OP at which R46 has a clause, and a pair of words of one LOAD. -/
theorem witness_DecodeIsTheRuleOfEveryWord :
    wellFormedWord 0x0000#16 = false ∧
    (wellFormedWord 0x1000#16 = true ∧ BitVec.extractLsb 15 12 0x1000#16 = 0x1#4) ∧
    (wellFormedWord 0x20FF#16 = true ∧ BitVec.extractLsb 15 12 0x20FF#16 = 0x2#4) ∧
    (wellFormedWord 0x3000#16 = true ∧ BitVec.extractLsb 15 12 0x3000#16 = 0x3#4) ∧
    (wellFormedWord 0x4000#16 = true ∧ BitVec.extractLsb 15 12 0x4000#16 = 0x4#4) ∧
    (wellFormedWord 0x53FF#16 = true ∧ BitVec.extractLsb 15 12 0x53FF#16 = 0x5#4) ∧
    (decode 0x5223#16 = .ok (.load 0x23#7 .buffer) ∧ decode 0x52A3#16 = .ok (.load 0x23#7 .buffer)) := by
  refine ⟨by decide, by decide, by decide, by decide, by decide, by decide, rfl, rfl⟩

/-- The boundary values of the unassigned OPs. -/
theorem witness_UnassignedOpIsRejected : ∃ s t u : State, ∃ w v x : Word,
    s.port = .command w :: [] ∧ t.port = .command v :: [] ∧ u.port = .command x :: [] ∧
    opField w = 0x0#4 ∧ opField v = 0x6#4 ∧ opField x = 0xF#4 :=
  ⟨at1 0#7 .fresh .none 0x0000#16, at1 0#7 .fresh .none 0x6000#16, at1 0#7 .fresh .none 0xF000#16, 0x0000#16, 0x6000#16, 0xF000#16,
    rfl, rfl, rfl, by decide, by decide, by decide⟩

theorem witness_AssemblerEncodesAndExpands : (∃ b : Nat, 255 < b) ∧ (∃ p : Nat, 3 < p) ∧ (∃ m : List Nat, ∃ b ∈ m, 255 < b) :=
  ⟨⟨256, by decide⟩, ⟨4, by decide⟩, ⟨[0, 256], 256, by decide⟩⟩

theorem witness_UpdsCompletes : ∃ s t : State, s.phase = .fresh ∧ t.phase = .single :=
  ⟨at1 0#7 .fresh .none 0#16, at1 0#7 .single .none 0#16, rfl, rfl⟩

theorem witness_UpdbCompletes : ∃ s t : State, s.phase = .fresh ∧ t.phase = .buffer :=
  ⟨at1 0#7 .fresh .none 0#16, at1 0#7 .buffer .none 0#16, rfl, rfl⟩

theorem witness_FinalCompletes : ∃ s t : State, s.phase = .fresh ∧ t.phase = .buffer :=
  ⟨at1 0#7 .fresh .none 0#16, at1 0#7 .buffer .none 0#16, rfl, rfl⟩

theorem witness_InitWordAtThePort : ∃ s u : State, ∃ w v : Word, s.port = .command w :: [] ∧ u.port = .command v :: [] ∧
    opField w = 0x1#4 ∧ opField v = 0x1#4 ∧ w = 0x1000#16 ∧ v ≠ 0x1000#16 :=
  ⟨at1 0#7 .final .mix 0x1000#16, at1 0#7 .fresh .none 0x1001#16, 0x1000#16, 0x1001#16, rfl, rfl, by decide⟩

theorem witness_LoadWordAtThePort : ∃ s u : State, ∃ w v : Word, s.port = .command w :: [] ∧ u.port = .command v :: [] ∧
    opField w = 0x5#4 ∧ opField v = 0x5#4 ∧ rsvField w = 0#2 ∧ rsvField v ≠ 0#2 :=
  ⟨at1 0#7 .final .mix 0x53FF#16, at1 0#7 .fresh .none 0x5400#16, 0x53FF#16, 0x5400#16, rfl, rfl, by decide⟩

/-- A well-formed UPDS in each phase, and two ill-formed words. -/
theorem witness_UpdsWordAtThePort :
    (∀ p : Phase, ∃ s : State, s.port = .command 0x20FF#16 :: [] ∧ s.phase = p) ∧
    (opField 0x20FF#16 = 0x2#4 ∧ phField 0x20FF#16 = 0#2 ∧ rsvField 0x20FF#16 = 0#2) ∧
    (∃ s : State, s.port = .command 0x2131#16 :: []) ∧ (opField 0x2131#16 = 0x2#4 ∧ phField 0x2131#16 ≠ 0#2) ∧
    (∃ s : State, s.port = .command 0x2431#16 :: []) ∧ (opField 0x2431#16 = 0x2#4 ∧ rsvField 0x2431#16 ≠ 0#2) :=
  ⟨fun p => ⟨at1 0#7 p .none 0x20FF#16, rfl, rfl⟩, by decide, ⟨at1 0#7 .fresh .none _, rfl⟩, by decide,
    ⟨at1 0#7 .fresh .none _, rfl⟩, by decide⟩

/-- A well-formed UPDB in each phase, and two ill-formed words. -/
theorem witness_UpdbWordAtThePort :
    (∀ p : Phase, ∃ s : State, s.port = .command 0x30FF#16 :: [] ∧ s.phase = p) ∧
    (opField 0x30FF#16 = 0x3#4 ∧ phField 0x30FF#16 = 0#2 ∧ rsvField 0x30FF#16 = 0#2) ∧
    (∃ s : State, s.port = .command 0x3131#16 :: []) ∧ (opField 0x3131#16 = 0x3#4 ∧ phField 0x3131#16 ≠ 0#2) ∧
    (∃ s : State, s.port = .command 0x3431#16 :: []) ∧ (opField 0x3431#16 = 0x3#4 ∧ rsvField 0x3431#16 ≠ 0#2) :=
  ⟨fun p => ⟨at1 0#7 p .none 0x30FF#16, rfl, rfl⟩, by decide, ⟨at1 0#7 .fresh .none _, rfl⟩, by decide,
    ⟨at1 0#7 .fresh .none _, rfl⟩, by decide⟩

/-- FINAL in each phase, and an ill-formed word. -/
theorem witness_FinalWordAtThePort :
    (∀ p : Phase, ∃ s : State, s.port = .command 0x4000#16 :: [] ∧ s.phase = p) ∧ opField 0x4000#16 = 0x4#4 ∧
    (∃ s : State, s.port = .command 0x4080#16 :: []) ∧ (opField 0x4080#16 = 0x4#4 ∧ (0x4080#16 : Word) ≠ 0x4000#16) :=
  ⟨fun p => ⟨at1 0#7 p .none 0x4000#16, rfl, rfl⟩, by decide, ⟨at1 0#7 .fresh .none _, rfl⟩, by decide⟩

theorem witness_SecondFinalIsRejectedAndNotIdempotent : ∃ s t : State, s.phase = .final ∧ s.errcause = .none ∧ t.phase = .final ∧ t.errcause = .mix :=
  ⟨at1 0#7 .final .none 0#16, at1 0#7 .final .mix 0#16, rfl, rfl, rfl, rfl⟩

theorem witness_WorkingWidthOfEight : ∃ W : Nat, 8 ≤ W := ⟨8, by decide⟩

theorem witness_CommandSequencesReturnWhatTheSourceReturns : ∃ p q : Phase, ∃ crc : Byte, ∃ data : List Byte, ∃ n m : Nat,
    (p = .single ∨ p = .fresh) ∧ (q = .buffer ∨ q = .fresh) ∧ n ≤ data.length ∧ (1 ≤ n ∨ crc.getLsbD 7 = false) ∧
    m = 0 ∧ m ≤ data.length ∧ crc.getLsbD 7 = false :=
  ⟨.single, .buffer, 0x7F#8, [0x31#8], 1, 0, by decide⟩

theorem witness_HostHasNoMovePastItsBuffer : ∃ data : List Byte, ∃ n m : Nat, data.length < n ∧ m ≤ data.length :=
  ⟨[0x31#8], 2, 1, by decide⟩

theorem witness_LegalityTable : ∃ s t : State, ∃ i : Instr, ∃ c, check s.phase i = none ∧ check t.phase i = some c :=
  ⟨at1 0#7 .fresh .none 0#16, at1 0#7 .single .none 0#16, .final, .mix, rfl, rfl⟩

theorem witness_PhaseTransitions : ∃ i : Instr, ∃ s t u v : State, ∃ c, exec i s = .next t ∧ check s.phase i = none ∧
    exec i u = .next v ∧ check u.phase i = some c :=
  ⟨.final, at1 0#7 .fresh .none 0#16, _, at1 0#7 .single .none 0#16, _, .mix, rfl, rfl, rfl, rfl⟩

theorem witness_RejectionRecordsItsCauseAndNothingElse : ∃ s t : State, ∃ rest₁ rest₂ w v c,
    s.port = .command w :: rest₁ ∧ verdict w s = some c ∧ t.port = .command v :: rest₂ ∧ verdict v t = none :=
  ⟨at1 0#7 .final .mix 0x2000#16, at1 0#7 .single .none 0x2000#16, [], [], 0x2000#16, 0x2000#16, .reuse, rfl, rfl, rfl, rfl⟩

/-- A rejection from NONE, a rejection from a recorded cause, and the three actions that clear. -/
theorem witness_ErrcauseIsStickyUntilInitOrReset :
    (∃ s t : State, step s = .next t ∧ s.errcause = .none ∧ t.errcause ≠ .none) ∧
    (∃ s t : State, step s = .next t ∧ s.errcause ≠ .none ∧ s.port.head? ≠ some (.command 0x1000#16) ∧
      s.port.head? ≠ some .reset ∧ ∀ w, s.port.head? ≠ some (.resetDuring w)) ∧
    (∃ s t : State, step s = .next t ∧ s.port.head? = some (.command 0x1000#16)) ∧
    (∃ s t : State, step s = .next t ∧ s.port.head? = some .reset) ∧
    (∃ s t : State, step s = .next t ∧ ∃ w, s.port.head? = some (.resetDuring w)) := by
  refine ⟨⟨at1 0#7 .final .none 0x2000#16, _, rfl, rfl, by decide⟩,
    ⟨at1 0#7 .final .mix 0x2000#16, _, rfl, by decide, by decide, by decide, fun w => by simp [at1]⟩,
    ⟨at1 0#7 .final .mix 0x1000#16, _, rfl, rfl⟩,
    ⟨⟨0#7, .final, .mix, [.reset], 0, []⟩, _, rfl, rfl⟩,
    ⟨⟨0#7, .final, .mix, [.resetDuring 0#16], 0, []⟩, _, rfl, 0#16, rfl⟩⟩

theorem witness_ErrcauseIsTheFirstRejectionOfTheRun : ∃ s : State, s.errcause = .none ∧ ∃ ws : List Word, ws ≠ [] ∧ ∀ w ∈ ws, w ≠ 0x1000#16 :=
  ⟨State.reset, rfl, [0x4000#16, 0x4000#16], by simp, by simp⟩

theorem witness_AcceptedExactlyTheProtocolPrefixes : ∃ cs : List Instr, cs ≠ [] ∧ ∀ c ∈ cs, IsProtocolStep c :=
  ⟨[.updb 0x31#8, .final], by simp, by simp [IsProtocolStep]⟩

theorem witness_StepRunsTheDecodedCommand : ∃ s : State, ∃ rest w i, s.port = .command w :: rest ∧ decode w = .ok i :=
  ⟨at1 0#7 .fresh .none 0x4000#16, [], 0x4000#16, .final, rfl, rfl⟩

theorem witness_StepsThatPerformNoCommand : (∃ s : State, s.port = []) ∧ (∃ s : State, ∃ rest, s.port = .reset :: rest) ∧
    (∃ s : State, ∃ rest w, s.port = .resetDuring w :: rest) :=
  ⟨⟨State.reset, rfl⟩, ⟨⟨0#7, .fresh, .none, [.reset], 0, []⟩, [], rfl⟩, ⟨⟨0#7, .fresh, .none, [.resetDuring 0#16], 0, []⟩, [], 0#16, rfl⟩⟩

/-- Two states that differ in everything but the registers and the first action. -/
theorem witness_StepReadsOnlyTheRegistersAndTheWord : ∃ s₁ s₂ t₁ t₂ : State, s₁ ≠ s₂ ∧ s₁.registers = s₂.registers ∧
    s₁.port.head? = s₂.port.head? ∧ step s₁ = .next t₁ ∧ step s₂ = .next t₂ :=
  ⟨at1 0x12#7 .fresh .mix 0x2034#16, ⟨0x12#7, .fresh, .mix, [.command 0x2034#16, .reset], 7, [⟨3, 0#16, .illegal⟩]⟩, _, _,
    by decide, rfl, rfl, rfl, rfl⟩

theorem witness_EveryStepKeepsTheLogSound : ∃ s t : State, s.LogSound ∧ step s = .next t ∧ t.rejected ≠ [] := by
  refine ⟨at1 0#7 .final .none 0x2000#16, _, ?_, rfl, by simp [reject]⟩
  unfold State.LogSound
  exact ⟨List.Pairwise.nil, fun r h => by simp [at1] at h, fun h => absurd rfl h⟩

/-- One computation begun with INIT and one begun with reset. -/
theorem witness_UnrejectedOutputIsTheCrcOfTheMessage : ∃ s t u : State, ∃ cs : List Instr, (∀ c ∈ cs, IsProtocolStep c) ∧
    (runWords (encode .init :: cs.map encode) s = .next t ∧ t.rejected = s.rejected ∧ t.phase ≠ .buffer) ∧
    (runWords (cs.map encode) (resetBlock s) = .next u ∧ u.rejected = s.rejected ∧ u.phase ≠ .buffer) :=
  ⟨at1 0x55#7 .single .mix 0#16, _, _, [.updb 0x31#8, .final], by simp [IsProtocolStep], ⟨rfl, rfl, by decide⟩, ⟨rfl, rfl, by decide⟩⟩

theorem witness_BufferUpdateStreams : ∃ s t : State, s.phase = .fresh ∧ t.phase = .buffer :=
  ⟨State.reset, at1 0#7 .buffer .none 0#16, rfl, rfl⟩

theorem witness_ResetAtThePins :
    (∃ c : Clocked, ∃ p : Pins, c.held p = true ∧ p.rst = true ∧ c.inFlight ≠ none) ∧
    (∃ c : Clocked, ∃ p : Pins, c.held p = true ∧ p.rst = false ∧ c.ready = false ∧ c.inFlight = none) ∧
    (∃ c : Clocked, ∃ p : Pins, c.held p = true ∧ p.rst = false ∧ c.ready = true ∧ c.inFlight = none ∧ p.valid = false) :=
  ⟨⟨accepted, ⟨true, false, 0#16⟩, rfl, rfl, by simp [accepted]⟩, ⟨Clocked.reset, ⟨false, false, 0#16⟩, rfl, rfl, rfl, rfl⟩,
    ⟨idle, ⟨false, false, 0#16⟩, rfl, rfl, rfl, rfl, rfl⟩⟩

theorem witness_AcceptedExactlyAtTheHandshake : ∃ c : Clocked, ∃ p q : Pins, c.Sound ∧ c.held p = true ∧ c.held q = true ∧
    (p.rst = false ∧ p.valid = true ∧ c.ready = true) ∧ ¬ (q.rst = false ∧ q.valid = true ∧ c.ready = true) :=
  ⟨idle, ⟨false, true, 0x2031#16⟩, ⟨false, false, 0x2031#16⟩, idle_sound, rfl, rfl, by decide, by decide⟩

/-- A host that has offered UPDS 0x31 and now drops cmd_valid, changes cmd, or holds both. -/
theorem witness_HostMustHoldItsOffer : ∃ c : Clocked, ∃ w : Word, ∃ p q r : Pins, c.offered = some w ∧ p.valid = false ∧
    (q.valid = true ∧ q.cmd ≠ w) ∧ (r.valid = true ∧ r.cmd = w) :=
  ⟨⟨State.reset, false, none, some 0x2031#16⟩, 0x2031#16, ⟨false, false, 0x2031#16⟩, ⟨false, true, 0x2032#16⟩,
    ⟨false, true, 0x2031#16⟩, rfl, rfl, by decide, by decide⟩

/-- The first clause, at the edge of acceptance itself, and the second, at the edge that ends the latency. -/
theorem witness_AcceptedCommandCompletesAfterItsLatency : ∃ c c₁ : Clocked, ∃ p : Pins, c.Sound ∧ c.ready = true ∧
    p.rst = false ∧ p.valid = true ∧ c.tick p = .next c₁ ∧
    (∃ ps : List Pins, (∀ q ∈ ps, q.rst = false) ∧ ps.length < latency p.cmd c.core ∧ ∃ c₂, Clocked.run ps c₁ = .next c₂) ∧
    (∃ ps : List Pins, (∀ q ∈ ps, q.rst = false) ∧ ps.length = latency p.cmd c.core ∧ ∃ c₂, Clocked.run ps c₁ = .next c₂) := by
  refine ⟨idle, accepted, ⟨false, true, 0x2031#16⟩, idle_sound, rfl, rfl, rfl, idle_accepts,
    ⟨[], by simp, latency_pos _ _, accepted, rfl⟩, ?_⟩
  obtain ⟨n, hn⟩ := Nat.exists_eq_add_of_le (latency_pos 0x2031#16 State.reset)
  have hn' : latency 0x2031#16 State.reset = n + 1 := by omega
  refine ⟨List.replicate (n + 1) ⟨false, false, 0#16⟩, fun q hq => ?_, ?_, ?_⟩
  · rw [List.eq_of_mem_replicate hq]
  · rw [List.length_replicate]; exact hn'.symm
  · exact run_quiet 0#16 n accepted ⟨0x2031#16, latency 0x2031#16 State.reset⟩ rfl hn' rfl

theorem witness_EveryAcceptedCommandCompletes : ∃ c d : Clocked, ∃ w : Word, (c.Sound ∧ c.ready = true ∧ c.offered = none) ∧
    (d.Sound ∧ d.ready = true ∧ d.offered = some w) := by
  refine ⟨idle, ⟨State.reset, true, none, some 0x1000#16⟩, 0x1000#16, ⟨idle_sound, rfl, rfl⟩, ?_, rfl, rfl⟩
  unfold Clocked.Sound
  exact ⟨fun _ => rfl, fun f h => by simp at h, rfl⟩

theorem witness_EveryEdgeKeepsTheClockedStateSound : ∃ c c' : Clocked, ∃ p : Pins, c.Sound ∧ c.tick p = .next c' :=
  ⟨idle, accepted, ⟨false, true, 0x2031#16⟩, idle_sound, idle_accepts⟩

/-- The ends of the ranges of clocks and of applications of FINAL. -/
theorem witness_BoundedClocksAndRounds : (∃ k, k < 8 ∧ k = 7) ∧ (∃ k, k < 7 ∧ k = 6) ∧ (∃ k, 1 ≤ k ∧ k < 9 ∧ k = 1) ∧
    (∃ k, 1 ≤ k ∧ k < 9 ∧ k = 8) := by
  refine ⟨⟨7, by decide⟩, ⟨6, by decide⟩, ⟨1, by decide⟩, ⟨8, by decide⟩⟩

theorem witness_RemainderExistsAndIsUnique : IsRemainder 0xB7 0x00 := ⟨by decide, 1, by decide⟩

/-- An edge of each kind: reset with and without a command in progress, the last cycle, the cycle before it, and an idle edge. -/
theorem witness_PinsRefineTheStep :
    (∃ c : Clocked, ∃ p : Pins, c.Sound ∧ c.held p = true ∧ p.rst = true ∧ c.inFlight = none) ∧
    (∃ c : Clocked, ∃ p : Pins, ∃ f, c.Sound ∧ c.held p = true ∧ p.rst = true ∧ c.inFlight = some f) ∧
    (∃ c : Clocked, ∃ p : Pins, ∃ f, c.Sound ∧ c.held p = true ∧ p.rst = false ∧ c.inFlight = some f ∧ f.remaining = 1) ∧
    (∃ c : Clocked, ∃ p : Pins, ∃ f, c.Sound ∧ c.held p = true ∧ p.rst = false ∧ c.inFlight = some f ∧ 1 < f.remaining) ∧
    (∃ c : Clocked, ∃ p : Pins, c.Sound ∧ c.held p = true ∧ p.rst = false ∧ c.inFlight = none) :=
  ⟨⟨idle, ⟨true, false, 0#16⟩, idle_sound, rfl, rfl, rfl⟩,
    ⟨busyFor 1, ⟨true, false, 0#16⟩, ⟨0x2031#16, 1⟩, busyFor_sound 1 (by decide), rfl, rfl, rfl⟩,
    ⟨busyFor 1, ⟨false, false, 0#16⟩, ⟨0x2031#16, 1⟩, busyFor_sound 1 (by decide), rfl, rfl, rfl, rfl⟩,
    ⟨busyFor 2, ⟨false, false, 0#16⟩, ⟨0x2031#16, 2⟩, busyFor_sound 2 (by decide), rfl, rfl, rfl, by decide⟩,
    ⟨idle, ⟨false, false, 0#16⟩, idle_sound, rfl, rfl, rfl⟩⟩

end Sys2Proof.Tests
end

section
/-! PROOFS. What R12's command sequences and the division by P need: the decoding of the host's words, a run one
performed word at a time, the source's rounds against the block's steps, and the remainder mod P. -/

namespace Sys2Proof.Machine

/-! ### The generator and the remainder mod P -/

/-- P = (x + 1)(x^6 + x^5 + x^3 + x^2 + 1), as a law of the product (R3). -/
theorem timesP_eq_factors (q : Nat) : timesP q =
    (q <<< 6 ^^^ q <<< 5 ^^^ q <<< 3 ^^^ q <<< 2 ^^^ q) <<< 1 ^^^
      (q <<< 6 ^^^ q <<< 5 ^^^ q <<< 3 ^^^ q <<< 2 ^^^ q) := by
  apply Nat.eq_of_testBit_eq
  intro i
  -- The terms q·x^6 and q·x^3 come twice on the right and cancel.
  simp only [timesP, Nat.shiftLeft_xor_distrib, ← Nat.shiftLeft_add, Nat.testBit_xor]
  grind

/-- P has degree 7, so a product with P other than 0 has degree 7 or more: its coefficient at 7 above the degree of `q` is 1. -/
theorem le_timesP {q : Nat} (hq : q ≠ 0) : 128 ≤ timesP q := by
  have hlow : ∀ j, 0 < j → q.testBit (q.log2 + j) = false := fun j hj =>
    Nat.testBit_lt_two_pow (Nat.lt_log2_self.trans_le (Nat.pow_le_pow_right (by omega) (by omega)))
  have htop : (timesP q).testBit (q.log2 + 7) = true := by
    simp [timesP, Nat.testBit_shiftLeft, Nat.add_sub_assoc, hlow, Nat.testBit_log2 hq]
  calc 128 = 2 ^ 7 := rfl
    _ ≤ 2 ^ (q.log2 + 7) := Nat.pow_le_pow_right (by omega) (by omega)
    _ ≤ timesP q := Nat.ge_two_pow_of_testBit htop

/-- Two remainders of one polynomial differ by a product with P of degree below 7, which is 0 (R8). -/
theorem IsRemainder.unique {v r r' : Nat} (h : IsRemainder v r) (h' : IsRemainder v r') : r' = r := by
  obtain ⟨hr, q, rfl⟩ := h
  obtain ⟨hr', q', hq'⟩ := h'
  have hdiff : timesP (q ^^^ q') = r' ^^^ r := by
    rw [timesP_xor, ← Nat.xor_left_inj (z := r), Nat.xor_xor_cancel_right, Nat.xor_right_comm, hq',
      Nat.xor_comm (timesP q'), Nat.xor_xor_cancel_right]
  have hlt : r' ^^^ r < 128 := Nat.xor_lt_two_pow (n := 7) hr' hr
  have hq : q ^^^ q' = 0 := by
    by_contra hne
    have hle := le_timesP hne
    omega
  rw [hq, timesP_zero] at hdiff
  exact Nat.xor_eq_zero_iff.1 hdiff.symm

/-- A polynomial of degree below 7 is its own remainder (R8). -/
theorem isRemainder_self {r : Nat} (hr : r < 128) : IsRemainder r r := ⟨hr, 0, by simp⟩

/-- The long division, one coefficient at a time: step B takes the remainder of u to that of u·x + b (R8, R64). -/
theorem IsRemainder.shift_xor_bit {u : Nat} {r : Crc} (h : IsRemainder u r.toNat) (b : Bool) :
    IsRemainder (u <<< 1 ^^^ b.toNat) (stepB r b).toNat := by
  obtain ⟨-, q, rfl⟩ := h
  refine ⟨(stepB r b).isLt, q <<< 1 ^^^ (r.getLsbD 6).toNat, ?_⟩
  rw [timesP_xor, timesP_shiftLeft, Nat.shiftLeft_xor_distrib, Nat.xor_assoc, stepB_timesP, Nat.xor_assoc]

/-- A polynomial is u·x + b, with b its lowest coefficient. -/
theorem bit_eq_xor (b : Bool) (u : Nat) : Nat.bit b u = u <<< 1 ^^^ b.toNat := by
  apply Nat.eq_of_testBit_eq
  intro i
  cases i with
  | zero => rw [Nat.testBit_bit_zero, Nat.testBit_xor]; cases b <;> simp
  | succ i =>
    have hb : b.toNat.testBit (i + 1) = false := by cases b <;> simp [Nat.testBit_succ]
    rw [Nat.testBit_bit_succ, Nat.testBit_xor, hb]
    simp [Nat.testBit_shiftLeft]

/-- Every polynomial has a remainder, by long division from its highest coefficient down (R8). -/
theorem exists_isRemainder (v : Nat) : ∃ r : Crc, IsRemainder v r.toNat := by
  induction v using Nat.binaryRec with
  | zero => exact ⟨0#7, isRemainder_self (by decide)⟩
  | bit b u ih =>
    obtain ⟨r, hr⟩ := ih
    exact ⟨stepB r b, bit_eq_xor b u ▸ hr.shift_xor_bit b⟩

/-- Settles O21: the constants are computed, and the factorisation is `timesP_eq_factors`. -/
theorem generatorFormsAgree : Obligations.GeneratorFormsAgree :=
  ⟨by decide, by decide, rfl, by decide, timesP_eq_factors⟩

/-- Settles O22: the remainder exists by long division, and is one because a product with P has degree 7 or more. -/
theorem remainderExistsAndIsUnique : Obligations.RemainderExistsAndIsUnique := by
  intro v
  obtain ⟨r, hr⟩ := exists_isRemainder v
  exact ⟨r.toNat, hr, fun _ hr' => hr.unique hr'⟩

/-! ### The words of the host -/

@[simp] theorem opField_loadWord (v : Byte) (p : Phase) : opField (loadWord v p) = 0x5#4 := by
  apply BitVec.eq_of_getLsbD_eq; intro i hi
  interval_cases i <;> simp [loadWord, opField]
@[simp] theorem rsvField_loadWord (v : Byte) (p : Phase) : rsvField (loadWord v p) = 0#2 := by
  apply BitVec.eq_of_getLsbD_eq; intro i hi
  interval_cases i <;> simp [loadWord, rsvField]
@[simp] theorem phField_loadWord (v : Byte) (p : Phase) : phField (loadWord v p) = p.code := by
  apply BitVec.eq_of_getLsbD_eq; intro i hi
  interval_cases i <;> simp [loadWord, phField]
@[simp] theorem dataField_loadWord (v : Byte) (p : Phase) : dataField (loadWord v p) = v := by
  apply BitVec.eq_of_getLsbD_eq; intro i hi
  interval_cases i <;> simp [loadWord, dataField]

/-- A word with LOAD's OP and RSV zero is a LOAD, whatever its other bits (R41, R46). -/
theorem decode_of_load_fields {w : Word} (hop : opField w = 0x5#4) (hrsv : rsvField w = 0#2) :
    decode w = .ok (.load ((dataField w).setWidth 7) (Phase.ofCode (phField w))) := by
  simp [decode, checkFields, hop, hrsv]

/-- The host's LOAD sets CRC to the low seven bits of its container (R41, R48). -/
theorem decode_loadWord (v : Byte) (p : Phase) : decode (loadWord v p) = .ok (.load (v.setWidth 7) p) := by
  rw [decode_of_load_fields (by simp) (by simp)]
  simp

/-- The word of a command decodes to that command (R46, R48). -/
theorem decode_encode (i : Instr) : decode (encode i) = .ok i := by
  cases i with
  | load v p => rw [decode_of_load_fields (by simp) (by simp)]; simp
  | init => simp [decode, checkFields]
  | upds d => simp [decode, checkFields]
  | updb d => simp [decode, checkFields]
  | final => simp [decode, checkFields]

/-! ### Runs of performed words -/

@[simp] theorem check_init (p : Phase) : check p .init = none := by cases p <;> rfl
@[simp] theorem check_load (p q : Phase) (v : Crc) : check p (.load v q) = none := by cases p <;> rfl

/-- UPDS may follow LOAD with the phase R12 gives it (R73). -/
theorem check_upds_of_phase {p : Phase} (hp : p = .single ∨ p = .fresh) (d : Byte) : check p (.upds d) = none := by
  rcases hp with rfl | rfl <;> rfl

/-- UPDB is performed in BUFFER and FRESH (R73). -/
theorem check_updb_of_phase {p : Phase} (hp : p = .buffer ∨ p = .fresh) (d : Byte) : check p (.updb d) = none := by
  rcases hp with rfl | rfl <;> rfl

/-- The first word of a run is performed where the check lets its command through, and the run goes on from there (R75, R78). -/
theorem runWords_cons_of_ok {w : Word} {i : Instr} {s : State} (hd : decode w = .ok i) (hc : check s.phase i = none)
    (ws : List Word) : runWords (w :: ws) s = runWords ws (performed i (takeWord [] s)) := by
  obtain ⟨t, -, hstep, hrun⟩ := runWords_cons w ws s
  rw [step_of_command (s := s.offering [.command w]) rfl, acceptWord, hd] at hstep
  have hexec : exec i (takeWord [] s) = .next t := hstep
  rw [exec_of_ok (s := takeWord [] s) hc] at hexec
  rw [hrun, Host.Outcome.next.inj hexec]

/-- A run of UPDB over a message folds the bytes into CRC, first byte first, and rejects nothing (R30, R63). -/
theorem runWords_updb (m : List Byte) {s : State} (hp : s.phase = .buffer ∨ s.phase = .fresh) :
    ∃ t, runWords (m.map fun b => encode (.updb b)) s = .next t ∧ t.crc = m.foldl updbByte s.crc ∧
      t.rejected = s.rejected := by
  induction m generalizing s with
  | nil => exact ⟨s.offering [], rfl, rfl, rfl⟩
  | cons b m ih =>
    rw [List.map_cons, runWords_cons_of_ok (decode_encode _) (check_updb_of_phase hp b)]
    exact ih (s := performed (.updb b) (takeWord [] s)) (.inl rfl)

/-- crc_out shows CRC below a zero bit, so both are one number (R18). -/
@[simp] theorem crcOut_toNat (s : State) : (crcOut s).toNat = s.crc.toNat := by
  rw [crcOut, BitVec.toNat_append]; simp

/-! ### The source's rounds and the block's steps

The low seven bits of the source's working register are the block's register: `BitVec.ofNat 7` takes each round of the source
to a step of the block, whatever the width W ≥ 8. -/

/-- A bit of a number as the source reads it. -/
theorem shiftRight_and_one (x i : Nat) : (x >>> i) &&& 1 = (x.testBit i).toNat := by
  rw [Nat.and_one_is_mod, Nat.toNat_testBit, Nat.shiftRight_eq_div_pow]

/-- The source's last mask keeps the block's register (R56, R62, R66). -/
theorem and_mask_eq_toNat (x : Nat) : x &&& 0x7F = (BitVec.ofNat 7 x).toNat :=
  Nat.and_two_pow_sub_one_eq_mod x 7

/-- A shift of a number is a shift of its low seven bits. -/
theorem ofNat_shiftLeft_one (x : Nat) : BitVec.ofNat 7 (x <<< 1) = BitVec.ofNat 7 x <<< 1 := by
  apply BitVec.eq_of_toNat_eq
  simp [Nat.shiftLeft_eq]

/-- Bit 6 of the source's working register is the block's, which both feed back. -/
theorem getLsbD_ofNat_six (x : Nat) : (BitVec.ofNat 7 x).getLsbD 6 = x.testBit 6 := BitVec.getLsbD_ofNat 7 x 6

/-- The bits of a datum in the order the source's loop counter counts them (R31, R56, R62). -/
theorem datumBits_eq_map (d : Byte) : datumBits d = [0, 1, 2, 3, 4, 5, 6, 7].map fun i => d.getLsbD (7 - i) := rfl

section
variable {W : Nat} (hW : 8 ≤ W)
include hW

/-- Truncation to the working width is not seen in the low seven bits. -/
theorem ofNat_mod_width (x : Nat) : BitVec.ofNat 7 (x % 2 ^ W) = BitVec.ofNat 7 x := by
  apply BitVec.eq_of_toNat_eq
  simp only [BitVec.toNat_ofNat]
  exact Nat.mod_mod_of_dvd x (Nat.pow_dvd_pow 2 (by omega))

/-- One round of the source's `singleByteUpdate` is step S (R54, R56). -/
theorem ofNat_sourceRoundS (x : Nat) (d : Byte) (i : Nat) :
    BitVec.ofNat 7 (sourceRoundS W d.toNat x i) = stepS (BitVec.ofNat 7 x) (d.getLsbD (7 - i)) := by
  have hfeedback : ∀ a b : Bool, a.toNat ^^^ b.toNat = 1 ↔ (a ^^ b) = true := by decide
  simp only [sourceRoundS, stepS, shiftRight_and_one, hfeedback, getLsbD_ofNat_six, apply_ite (BitVec.ofNat 7),
    BitVec.ofNat_xor, ofNat_mod_width hW, ofNat_shiftLeft_one]
  rfl

/-- One round of the source's `bufferUpdate` and `finalize` is step B (R61, R62). -/
theorem ofNat_sourceRoundB (x : Nat) (b : Bool) :
    BitVec.ofNat 7 (sourceRoundB W x b.toNat) = stepB (BitVec.ofNat 7 x) b := by
  have hfeedback : ∀ a : Bool, a.toNat = 1 ↔ a = true := by decide
  have hinput : ∀ b : Bool, BitVec.ofNat 7 b.toNat = (BitVec.ofBool b).setWidth 7 := by decide
  simp only [sourceRoundB, stepB, shiftRight_and_one, hfeedback, hinput, getLsbD_ofNat_six, apply_ite (BitVec.ofNat 7),
    BitVec.ofNat_xor, BitVec.ofNat_or, ofNat_mod_width hW, ofNat_shiftLeft_one]
  rfl

/-- The source's `singleByteUpdate` is UPDS on the low seven bits of its crc (R56). -/
theorem sourceSBU_eq_updsByte (x : Nat) (d : Byte) :
    sourceSBU W x d.toNat = (updsByte (BitVec.ofNat 7 x) d).toNat := by
  rw [sourceSBU, and_mask_eq_toNat, updsByte, datumBits_eq_map, List.foldl_map]
  exact congrArg BitVec.toNat
    (List.foldl_hom (BitVec.ofNat 7) fun x i => (ofNat_sourceRoundS hW x d i).symm).symm

/-- One byte of the source's `bufferUpdate` is UPDB on the low seven bits of its crc (R62). -/
theorem sourceBUByte_eq_updbByte (x : Nat) (b : Byte) :
    sourceBUByte W x b.toNat = (updbByte (BitVec.ofNat 7 x) b).toNat := by
  simp only [sourceBUByte, and_mask_eq_toNat, updbByte, datumBits_eq_map, List.foldl_map, shiftRight_and_one]
  exact congrArg BitVec.toNat
    (List.foldl_hom (BitVec.ofNat 7) fun x i => (ofNat_sourceRoundB hW x (b.getLsbD (7 - i))).symm).symm

/-- The source's `finalize` is FINAL on the low seven bits of its crc (R66). -/
theorem sourceFinalize_eq_finalRounds (x : Nat) :
    sourceFinalize W x = (finalRounds (BitVec.ofNat 7 x)).toNat := by
  have hinputs : [0, 0, 0, 0, 0, 0, 0] = finalBits.map Bool.toNat := rfl
  rw [sourceFinalize, and_mask_eq_toNat, finalRounds, hinputs, List.foldl_map]
  exact congrArg BitVec.toNat
    (List.foldl_hom (BitVec.ofNat 7) fun x b => (ofNat_sourceRoundB hW x b).symm).symm

/-- From a 7-bit crc the source's `bufferUpdate` folds UPDB over its buffer (R30, R62). -/
theorem sourceBufferUpdate_toNat (r : Crc) (m : List Byte) :
    sourceBufferUpdate W r.toNat m = (m.foldl updbByte r).toNat :=
  List.foldl_hom BitVec.toNat fun r b => by rw [sourceBUByte_eq_updbByte hW]; simp

/-- From an 8-bit crc too, if there is a byte to mask it or it has its top bit clear (R10, R62). -/
theorem sourceBufferUpdate_eq_foldl (crc : Byte) (m : List Byte) (h : m ≠ [] ∨ crc.getLsbD 7 = false) :
    sourceBufferUpdate W crc.toNat m = (m.foldl updbByte (crc.setWidth 7)).toNat := by
  cases m with
  | nil =>
    have htop : crc.getLsbD 7 = false := h.resolve_left (by simp)
    have hlt : 2 * crc.toNat < 2 ^ 8 :=
      BitVec.msb_eq_false_iff_two_mul_lt.1 ((BitVec.msb_eq_getLsbD_last crc).trans htop)
    have hmod : crc.toNat % 2 ^ 7 = crc.toNat := Nat.mod_eq_of_lt (by omega)
    exact hmod.symm
  | cons b m =>
    rw [sourceBufferUpdate, List.foldl_cons, sourceBUByte_eq_updbByte hW]
    exact sourceBufferUpdate_toNat hW _ m

end

/-! ### The source's operations as command sequences -/

/-- `init()` leaves the seed 0 on crc_out (R12). -/
theorem run_callInit (s : State) :
    ∃ t, runWords callInit s = .next t ∧ (crcOut t).toNat = 0 ∧ t.rejected = s.rejected := by
  rw [callInit, runWords_cons_of_ok (decode_encode _) (check_init _)]
  exact ⟨_, rfl, crcOut_toNat _, rfl⟩

/-- `singleByteUpdate(crc, datum)` leaves UPDS of its masked crc in CRC (R12). -/
theorem run_callSingleByteUpdate {p : Phase} (hp : p = .single ∨ p = .fresh) (crc datum : Byte) (s : State) :
    ∃ t, runWords (callSingleByteUpdate p crc datum) s = .next t ∧ t.crc = updsByte (crc.setWidth 7) datum ∧
      t.rejected = s.rejected := by
  rw [callSingleByteUpdate, runWords_cons_of_ok (decode_loadWord _ _) (check_load _ _ _),
    runWords_cons_of_ok (decode_encode _) (check_upds_of_phase hp datum)]
  exact ⟨_, rfl, rfl, rfl⟩

/-- `bufferUpdate(crc, data, length)` leaves UPDB of its masked crc over the first `length` bytes in CRC (R12). -/
theorem run_callBufferUpdate {p : Phase} (hp : p = .buffer ∨ p = .fresh) (crc : Byte) {data : List Byte} {length : Nat}
    (hl : length ≤ data.length) (s : State) :
    ∃ ws t, callBufferUpdate p crc data length = .next ws ∧ runWords ws s = .next t ∧
      t.crc = (data.take length).foldl updbByte (crc.setWidth 7) ∧ t.rejected = s.rejected := by
  obtain ⟨t, hrun, hcrc, hrej⟩ :=
    runWords_updb (data.take length) (s := performed (.load (crc.setWidth 7) p) (takeWord [] s)) hp
  refine ⟨_, t, if_neg (Nat.not_lt.2 hl), ?_, hcrc, hrej⟩
  rw [runWords_cons_of_ok (decode_loadWord _ _) (check_load _ _ _), hrun]

/-- `finalize(crc)` leaves FINAL of its masked crc in CRC (R12). -/
theorem run_callFinalize (crc : Byte) (s : State) :
    ∃ t, runWords (callFinalize crc) s = .next t ∧ t.crc = finalRounds (crc.setWidth 7) ∧ t.rejected = s.rejected := by
  rw [callFinalize, runWords_cons_of_ok (decode_loadWord _ _) (check_load _ _ _),
    runWords_cons_of_ok (decode_encode _) rfl]
  exact ⟨_, rfl, rfl, rfl⟩

/-- Settles O32: each call's run leaves the block's function of the masked crc in CRC, and the source's algorithm returns that
function's value. -/
theorem commandSequencesReturnWhatTheSourceReturns : Obligations.CommandSequencesReturnWhatTheSourceReturns := by
  intro W hW s
  refine ⟨run_callInit s, ?_, ?_, ?_⟩
  · intro p crc datum hp
    obtain ⟨t, hrun, hcrc, hrej⟩ := run_callSingleByteUpdate hp crc datum s
    exact ⟨t, hrun, by rw [crcOut_toNat, hcrc, sourceSBU_eq_updsByte hW]; rfl, hrej⟩
  · intro p crc data length hp hl hmask
    obtain ⟨ws, t, hcall, hrun, hcrc, hrej⟩ := run_callBufferUpdate hp crc hl s
    have hne : data.take length ≠ [] ∨ crc.getLsbD 7 = false :=
      hmask.imp_left fun h => List.ne_nil_of_length_pos (by rw [List.length_take]; omega)
    exact ⟨ws, t, hcall, hrun, by rw [crcOut_toNat, hcrc, sourceBufferUpdate_eq_foldl hW crc _ hne], hrej⟩
  · intro crc
    obtain ⟨t, hrun, hcrc, hrej⟩ := run_callFinalize crc s
    exact ⟨t, hrun, by rw [crcOut_toNat, hcrc, sourceFinalize_eq_finalRounds hW]; rfl, hrej⟩

end Sys2Proof.Machine
end

section
/-! PROOFS. The observation of a run and the output ports: the words the decoder takes, what justifies a recorded rejection, what
a step does to the log and to ERRCAUSE, and the ports field by field. -/

namespace Sys2Proof.Machine

/-! ### The words the decoder takes, and the rejections it justifies -/

/-- The decoder answers a command for exactly the words R43 calls well formed (R46). -/
theorem wellFormedWord_iff_decode_ok (w : Word) : wellFormedWord w = true ↔ ∃ i, decode w = .ok i := by
  rw [wellFormedWord_iff]
  constructor
  · rintro ⟨hrsv, ⟨hop, hph, hdata⟩ | ⟨hop, hph⟩ | ⟨hop, hph⟩ | ⟨hop, hph, hdata⟩ | hop⟩
    · exact ⟨.init, by simp [decode, checkFields, *]⟩
    · exact ⟨.upds (dataField w), by simp [decode, checkFields, *]⟩
    · exact ⟨.updb (dataField w), by simp [decode, checkFields, *]⟩
    · exact ⟨.final, by simp [decode, checkFields, *]⟩
    · exact ⟨_, decode_of_load_fields hop hrsv⟩
  · rintro ⟨i, hi⟩
    obtain ⟨hop, hrsv, hph, hdata, -⟩ | ⟨hop, hrsv, hph, -⟩ | ⟨hop, hrsv, hph, -⟩ | ⟨hop, hrsv, hph, hdata, -⟩ |
      ⟨hop, hrsv, -⟩ := decode_cases hi <;> simp [*]

/-- Only UPDS, UPDB and FINAL have phases in which the check rejects them (R73). -/
theorem opField_of_check {w : Word} {i : Instr} {p : Phase} {c : Cause} (hi : decode w = .ok i)
    (hc : check p i = some c) : opField w = 0x2#4 ∨ opField w = 0x3#4 ∨ opField w = 0x4#4 := by
  obtain ⟨-, -, -, -, rfl⟩ | ⟨hop, -⟩ | ⟨hop, -⟩ | ⟨hop, -⟩ | ⟨-, -, rfl⟩ := decode_cases hi
  · simp at hc
  · exact .inl hop
  · exact .inr (.inl hop)
  · exact .inr (.inr hop)
  · simp at hc

/-- The block rejects a word only for a cause that the word can have (R82, R85). -/
theorem justified_of_verdict {w : Word} {s : State} {c : Cause} (h : verdict w s = some c) (n : Nat) :
    Rejection.Justified ⟨n, w, c⟩ := by
  unfold verdict at h
  cases hd : decode w with
  | error e =>
    rw [hd] at h
    obtain rfl : .illegal = c := Option.some.inj h
    have hill : ¬ wellFormedWord w = true := by simp [wellFormedWord_iff_decode_ok, hd]
    exact ⟨by simpa using hill, fun hne => absurd rfl hne⟩
  | ok i =>
    rw [hd] at h
    have hwf : wellFormedWord w = true := (wellFormedWord_iff_decode_ok w).2 ⟨i, hd⟩
    exact ⟨by simp [check_ne_illegal h, hwf], fun _ => opField_of_check hd h⟩

/-! ### What a step does to the log and to ERRCAUSE -/

/-- INIT clears ERRCAUSE and no other performed command writes it (R52, R53, R55, R63, R66). -/
theorem performed_errcause (i : Instr) (s : State) :
    (performed i s).errcause = if i = .init then .none else s.errcause := by
  cases i <;> rfl

/-- ERRCAUSE after one more recorded rejection: the first cause stays (R84). -/
def recordFirst (e : ErrCause) (r : Rejection) : ErrCause := if e = .none then recorded r.cause else e

theorem recordFirst_of_none (r : Rejection) : recordFirst .none r = recorded r.cause := rfl

theorem recordFirst_of_ne_none {e : ErrCause} (he : e ≠ .none) (r : Rejection) : recordFirst e r = e := if_neg he

theorem afterRejection_errcause (s : State) (rest : List HostAction) (w : Word) (c : Cause) :
    (s.afterRejection rest w c).errcause = recordFirst s.errcause ⟨s.position + 1, w, c⟩ := by
  rw [← reject_takeWord]
  rfl

/-- A sound log stays sound while it gains no entry, ERRCAUSE is kept or cleared, and words are counted. -/
theorem State.LogSound.of_rejected_eq {s t : State} (hs : s.LogSound) (hlog : t.rejected = s.rejected)
    (hpos : s.position ≤ t.position) (herr : t.errcause = s.errcause ∨ t.errcause = .none) : t.LogSound := by
  obtain ⟨hord, hentries, hcause⟩ := hs
  refine ⟨hlog ▸ hord, fun r hr => ?_, fun hne => ?_⟩
  · obtain ⟨h1, hle, hj⟩ := hentries r (hlog ▸ hr)
    exact ⟨h1, hle.trans hpos, hj⟩
  · have heq : t.errcause = s.errcause := herr.resolve_right hne
    rw [heq, hlog]
    exact hcause (heq ▸ hne)

/-- A sound log stays sound when a word is rejected for its verdict: the new entry stands beyond all the others (R78, R83, R84). -/
theorem State.LogSound.afterRejection {s : State} (hs : s.LogSound) {w : Word} {c : Cause} (hv : verdict w s = some c)
    (rest : List HostAction) : (s.afterRejection rest w c).LogSound := by
  obtain ⟨hord, hentries, hcause⟩ := hs
  refine ⟨List.pairwise_append.2 ⟨hord, List.pairwise_singleton _ _, fun a ha b hb => ?_⟩, fun r hr => ?_, fun _ => ?_⟩
  · obtain rfl := List.mem_singleton.1 hb
    exact Nat.lt_succ_of_le (hentries a ha).2.1
  · obtain hr | hr := List.mem_append.1 hr
    · obtain ⟨h1, hle, hj⟩ := hentries r hr
      exact ⟨h1, Nat.le_succ_of_le hle, hj⟩
    · obtain rfl := List.mem_singleton.1 hr
      exact ⟨Nat.succ_pos _, le_rfl, justified_of_verdict hv _⟩
  · rw [afterRejection_errcause]
    by_cases he : s.errcause = .none
    · exact ⟨_, List.mem_append_right _ (List.mem_singleton_self _), by rw [he, recordFirst_of_none]⟩
    · obtain ⟨r, hr, heq⟩ := hcause he
      exact ⟨r, List.mem_append_left _ hr, by rw [heq, recordFirst_of_ne_none he]⟩

/-- Settles O45: a step that rejects a word adds a sound entry, and every other step keeps the log and keeps or clears ERRCAUSE. -/
theorem everyStepKeepsTheLogSound : Obligations.EveryStepKeepsTheLogSound := by
  intro s t hs hstep
  obtain ⟨-, h⟩ | ⟨rest, -, h⟩ | ⟨w, rest, -, h⟩ | ⟨w, rest, c, -, hv, h⟩ | ⟨w, rest, i, -, -, -, -, h⟩ := step_cases s <;>
    obtain rfl := Host.Outcome.next.inj (h.symm.trans hstep)
  · exact hs
  · exact hs.of_rejected_eq rfl le_rfl (.inr rfl)
  · exact hs.of_rejected_eq rfl (Nat.le_succ _) (.inr rfl)
  · exact hs.afterRejection hv rest
  · refine hs.of_rejected_eq (by simp) (by simp) ?_
    rw [performed_errcause]
    split
    · exact .inr rfl
    · exact .inl rfl

/-! ### ERRCAUSE over a run without INIT -/

/-- A word other than INIT adds to the log what it is rejected for, if it is, and ERRCAUSE records it (R84, R89). -/
theorem step_of_ne_init {w : Word} (hw : w ≠ 0x1000#16) (s : State) :
    ∃ t new, step (s.offering [.command w]) = .next t ∧ t.rejected = s.rejected ++ new ∧
      t.errcause = new.foldl recordFirst s.errcause := by
  rw [step_of_command (s := s.offering [.command w]) rfl]
  obtain ⟨c, -, h⟩ | ⟨i, hd, -, -, h⟩ := acceptWord_cases w (takeWord [] (s.offering [.command w]))
  · exact ⟨_, [⟨s.position + 1, w, c⟩], h, rfl, rfl⟩
  · have hi : i ≠ .init := fun hi => hw (word_of_init (hi ▸ hd))
    exact ⟨_, [], h, by simp, by simp [performed_errcause, hi]⟩

/-- A run without INIT appends its rejections to the log, and ERRCAUSE records them one after the other (R84, R89). -/
theorem runWords_of_ne_init {ws : List Word} (hws : ∀ w ∈ ws, w ≠ 0x1000#16) (s : State) :
    ∃ t new, runWords ws s = .next t ∧ t.rejected = s.rejected ++ new ∧
      t.errcause = new.foldl recordFirst s.errcause := by
  induction ws generalizing s with
  | nil => exact ⟨s.offering [], [], rfl, by simp, rfl⟩
  | cons w ws ih =>
    obtain ⟨hw, hws⟩ := List.forall_mem_cons.1 hws
    obtain ⟨u, -, hstep, hrun⟩ := runWords_cons w ws s
    obtain ⟨u', new, hstep', hlog, herr⟩ := step_of_ne_init hw s
    obtain rfl := Host.Outcome.next.inj (hstep'.symm.trans hstep)
    obtain ⟨t, new', hrun', hlog', herr'⟩ := ih hws u'
    exact ⟨t, new ++ new', hrun.trans hrun', by rw [hlog', hlog, List.append_assoc],
      by rw [herr', herr, List.foldl_append]⟩

/-- From NONE, ERRCAUSE is the cause of the first rejection recorded, and of no later one (R84). -/
theorem foldl_recordFirst_cons (r : Rejection) (l : List Rejection) :
    (r :: l).foldl recordFirst .none = recorded r.cause :=
  List.foldl_fixed' (recordFirst_of_ne_none (recorded_ne_none r.cause)) l

/-- Settles O38: ERRCAUSE records the run's rejections one after the other, and keeps the first. -/
theorem errcauseIsTheFirstRejectionOfTheRun : Obligations.ErrcauseIsTheFirstRejectionOfTheRun := by
  intro s hs ws hws
  obtain ⟨t, new, hrun, hlog, herr⟩ := runWords_of_ne_init hws s
  refine ⟨t, new, hrun, hlog, ?_⟩
  rw [herr, hs]
  cases new with
  | nil => rfl
  | cons r l => exact foldl_recordFirst_cons r l

/-! ### The output ports -/

/-- The top bit of crc_out is 0 (R18). -/
theorem crcOut_top (s : State) : (crcOut s).getLsbD 7 = false := BitVec.getLsbD_append

/-- The seven lower bits of crc_out are CRC (R18). -/
theorem crcOut_bit (s : State) {i : Nat} (hi : i < 7) : (crcOut s).getLsbD i = s.crc.getLsbD i :=
  BitVec.getLsbD_append.trans (if_pos hi)

/-! The four fields of status_out, from the low end up: PHASE, ERRCAUSE, ERR and the zeros (R21). -/

theorem statusOut_phase (s : State) : (statusOut s).extractLsb' 0 2 = s.phase.code :=
  calc (statusOut s).extractLsb' 0 2
    _ = (BitVec.ofBool (errBit s.errcause) ++ (errCode s.errcause ++ s.phase.code)).extractLsb' 0 2 :=
      BitVec.extractLsb'_append_eq_of_add_le (by decide)
    _ = (errCode s.errcause ++ s.phase.code).extractLsb' 0 2 := BitVec.extractLsb'_append_eq_of_add_le (by decide)
    _ = s.phase.code := BitVec.extractLsb'_append_eq_right

theorem statusOut_errcause (s : State) : (statusOut s).extractLsb' 2 2 = errCode s.errcause :=
  calc (statusOut s).extractLsb' 2 2
    _ = (BitVec.ofBool (errBit s.errcause) ++ (errCode s.errcause ++ s.phase.code)).extractLsb' 2 2 :=
      BitVec.extractLsb'_append_eq_of_add_le (by decide)
    _ = (errCode s.errcause ++ s.phase.code).extractLsb' 2 2 := BitVec.extractLsb'_append_eq_of_add_le (by decide)
    _ = errCode s.errcause := BitVec.extractLsb'_append_eq_left

theorem statusOut_err (s : State) : (statusOut s).getLsbD 4 = errBit s.errcause :=
  calc (statusOut s).getLsbD 4
    _ = (BitVec.ofBool (errBit s.errcause) ++ (errCode s.errcause ++ s.phase.code)).getLsbD 4 := BitVec.getLsbD_append
    _ = (BitVec.ofBool (errBit s.errcause)).getLsbD 0 := BitVec.getLsbD_append
    _ = errBit s.errcause := by simp

theorem statusOut_top (s : State) : (statusOut s).extractLsb' 5 3 = 0#3 := BitVec.extractLsb'_append_eq_left

/-- ERR is 1 exactly while ERRCAUSE is not NONE (R21). -/
theorem statusOut_err_iff (s : State) : (statusOut s).getLsbD 4 = true ↔ s.errcause ≠ .none := by
  rw [statusOut_err, errBit, decide_eq_true_iff]

/-- The outputs have a value exactly while cmd_ready = 1 and rst = 0 (R97, log entry 12). -/
theorem visible_eq (c : Clocked) (rst : Bool) :
    c.visible rst = if c.ready = true ∧ rst = false then some (outputs c.core) else none := by
  simp [Clocked.visible]

/-- Settles O2: each port by its fields, and the pins by `visible_eq`. -/
theorem outputPortsShowTheRegisters : Obligations.OutputPortsShowTheRegisters := by
  refine ⟨fun s => ⟨crcOut_top s, fun i hi => crcOut_bit s hi, ?_, ?_, statusOut_err_iff s, statusOut_top s, rfl,
    statusOut_err_iff s, rfl⟩, fun c => ⟨fun hready => ?_, fun rst hundefined => ?_⟩⟩
  · rw [statusOut_phase]; cases s.phase <;> rfl
  · rw [statusOut_errcause]; cases s.errcause <;> rfl
  · simp [visible_eq, hready]
  · rw [visible_eq, if_neg]
    rintro ⟨hready, hrst⟩
    simp [hready, hrst] at hundefined

end Sys2Proof.Machine
end

section
/-! PROOFS. What a step reads: the registers it leaves are a function of the registers before it and of the first action at the
port; and the host's buffer, past whose end its call has no move. -/

namespace Sys2Proof.Machine

/-! ### The registers a step leaves -/

theorem registers_eq_iff {s t : State} :
    s.registers = t.registers ↔ s.crc = t.crc ∧ s.phase = t.phase ∧ s.errcause = t.errcause := by
  simp [State.registers]

/-- A rejection reads ERRCAUSE alone, and leaves CRC and PHASE (R83, R84). -/
theorem reject_registers_congr {s₁ s₂ : State} (h : s₁.registers = s₂.registers) (w : Word) (c : Cause) :
    (reject w c s₁).registers = (reject w c s₂).registers := by
  obtain ⟨hcrc, hphase, herr⟩ := registers_eq_iff.1 h
  simp [registers_eq_iff, hcrc, hphase, herr]

/-- A performed command reads and writes registers alone (R35). -/
theorem performed_registers_congr {s₁ s₂ : State} (h : s₁.registers = s₂.registers) (i : Instr) :
    (performed i s₁).registers = (performed i s₂).registers := by
  obtain ⟨hcrc, -, herr⟩ := registers_eq_iff.1 h
  cases i <;> simp [registers_eq_iff, performed, hcrc, herr]

/-- Equal registers give a word one verdict, and what follows the verdict reads registers alone (R75). -/
theorem acceptWord_registers_congr {s₁ s₂ t₁ t₂ : State} {w : Word} (h : s₁.registers = s₂.registers)
    (h₁ : acceptWord w s₁ = .next t₁) (h₂ : acceptWord w s₂ = .next t₂) : t₁.registers = t₂.registers := by
  obtain ⟨-, hphase, -⟩ := registers_eq_iff.1 h
  have hverdict : verdict w s₁ = verdict w s₂ := verdict_congr hphase
  rw [acceptWord_eq] at h₁ h₂
  rw [hverdict] at h₁
  cases hv : verdict w s₂ with
  | some c =>
    simp only [hv, Host.Outcome.next.injEq] at h₁ h₂
    exact h₁ ▸ h₂ ▸ reject_registers_congr h w c
  | none =>
    cases hd : decode w with
    | ok i =>
      simp only [hv, hd, Host.Outcome.next.injEq] at h₁ h₂
      exact h₁ ▸ h₂ ▸ performed_registers_congr h i
    | error e => simp [verdict, hd] at hv

/-- The step leaves equal registers where the registers and the first action of the port were equal (R35). -/
theorem step_registers_congr {s₁ s₂ t₁ t₂ : State} (h : s₁.registers = s₂.registers)
    (hport : s₁.port.head? = s₂.port.head?) (h₁ : step s₁ = .next t₁) (h₂ : step s₂ = .next t₂) :
    t₁.registers = t₂.registers := by
  cases hp₁ : s₁.port with
  | nil =>
    have hp₂ : s₂.port = [] := List.head?_eq_none_iff.1 (by rw [← hport, hp₁, List.head?_nil])
    obtain rfl := Host.Outcome.next.inj ((step_of_idle hp₁).symm.trans h₁)
    obtain rfl := Host.Outcome.next.inj ((step_of_idle hp₂).symm.trans h₂)
    exact h
  | cons a rest₁ =>
    obtain ⟨rest₂, hp₂⟩ : ∃ rest₂, s₂.port = a :: rest₂ :=
      List.head?_eq_some_iff.1 (by rw [← hport, hp₁, List.head?_cons])
    cases a with
    | reset =>
      obtain rfl := Host.Outcome.next.inj ((step_of_reset hp₁).symm.trans h₁)
      obtain rfl := Host.Outcome.next.inj ((step_of_reset hp₂).symm.trans h₂)
      simp only [registers_resetBlock]
    | resetDuring w =>
      obtain rfl := Host.Outcome.next.inj ((step_of_resetDuring hp₁).symm.trans h₁)
      obtain rfl := Host.Outcome.next.inj ((step_of_resetDuring hp₂).symm.trans h₂)
      simp only [registers_resetBlock]
    | command w =>
      have htaken : (takeWord rest₁ s₁).registers = (takeWord rest₂ s₂).registers := by simpa using h
      exact acceptWord_registers_congr htaken ((step_of_command hp₁).symm.trans h₁)
        ((step_of_command hp₂).symm.trans h₂)

/-- Settles O43: the registers by `step_registers_congr`, and the outputs are a function of them. -/
theorem stepReadsOnlyTheRegistersAndTheWord : Obligations.StepReadsOnlyTheRegistersAndTheWord := by
  intro s₁ s₂ t₁ t₂ h hport h₁ h₂
  have hregs : t₁.registers = t₂.registers := step_registers_congr h hport h₁ h₂
  exact ⟨hregs, outputs_eq_of_registers hregs⟩

/-! ### The host's buffer -/

/-- A length beyond the buffer has no move (R29, U1). -/
theorem callBufferUpdate_of_length_lt {data : List Byte} {length : Nat} (h : data.length < length) (p : Phase) (crc : Byte) :
    callBufferUpdate p crc data length = .refused .hostReadsPastBuffer := if_pos h

/-- A length within the buffer gives the LOAD and one UPDB for each of the first `length` bytes (R12, R29). -/
theorem callBufferUpdate_of_le_length {data : List Byte} {length : Nat} (h : length ≤ data.length) (p : Phase) (crc : Byte) :
    callBufferUpdate p crc data length =
      .next (loadWord crc p :: (data.take length).map fun b => encode (.updb b)) := if_neg (Nat.not_lt.2 h)

/-- Settles O33: the call is refused beyond its buffer, and within it is a LOAD and `length` words more. -/
theorem hostHasNoMovePastItsBuffer : Obligations.HostHasNoMovePastItsBuffer := by
  intro p crc data length
  refine ⟨fun h => callBufferUpdate_of_length_lt h p crc, fun h => ⟨_, callBufferUpdate_of_le_length h p crc, ?_⟩⟩
  rw [List.length_cons, List.length_map, List.length_take_of_le h]

end Sys2Proof.Machine
end

section
/-! PROOFS. The encoding: the decoder against R43's well-formed words, the two words of a LOAD, the words of an assembler
line, and a word with an unassigned OP at the port. -/

namespace Sys2Proof.Machine

/-! ### The decoder on every word -/

/-- The decoder refuses exactly the words R43 does not call well formed (R46). -/
theorem wellFormedWord_eq_false_iff (w : Word) : wellFormedWord w = false ↔ ∃ e, decode w = .error e := by
  rw [← Bool.not_eq_true, wellFormedWord_iff_decode_ok]
  cases decode w <;> simp

/-- Settles O5: the word of a command decodes to it, and a word that decodes is well formed. -/
theorem decodeOfEncodeIsTheCommand : Obligations.DecodeOfEncodeIsTheCommand := fun i =>
  ⟨(wellFormedWord_iff_decode_ok _).2 ⟨i, decode_encode i⟩, decode_encode i⟩

/-- A word is a LOAD by its OP and RSV, whose operands are PH and the low seven bits of DATA (R41, R46). -/
theorem decode_eq_load_iff {w : Word} {v : Crc} {p : Phase} : decode w = .ok (.load v p) ↔
    opField w = 0x5#4 ∧ rsvField w = 0#2 ∧ phField w = p.code ∧ (dataField w).setWidth 7 = v := by
  constructor
  · intro h
    obtain ⟨-, -, -, -, hi⟩ | ⟨-, -, -, hi⟩ | ⟨-, -, -, hi⟩ | ⟨-, -, -, -, hi⟩ | ⟨hop, hrsv, hi⟩ := decode_cases h <;>
      cases hi
    exact ⟨hop, hrsv, (Phase.code_ofCode _).symm, rfl⟩
  · rintro ⟨hop, hrsv, hph, rfl⟩
    rw [decode_of_load_fields hop hrsv, hph, Phase.ofCode_code]

/-! Bit 7 of a word is the top bit of DATA and lies in no other field (R39). -/

@[simp] theorem opField_xor_bit7 (w : Word) : opField (w ^^^ 0x0080#16) = opField w := by
  simp [opField, BitVec.extractLsb'_xor]

@[simp] theorem rsvField_xor_bit7 (w : Word) : rsvField (w ^^^ 0x0080#16) = rsvField w := by
  simp [rsvField, BitVec.extractLsb'_xor]

@[simp] theorem phField_xor_bit7 (w : Word) : phField (w ^^^ 0x0080#16) = phField w := by
  simp [phField, BitVec.extractLsb'_xor]

@[simp] theorem dataField_xor_bit7 (w : Word) : dataField (w ^^^ 0x0080#16) = dataField w ^^^ 0x80#8 := by
  simp [dataField, BitVec.extractLsb'_xor]

/-- Two bytes with the same low seven bits differ in the top bit alone, if at all. -/
theorem eq_or_eq_xor_top_of_setWidth_eq {a b : Byte} (h : a.setWidth 7 = b.setWidth 7) : a = b ∨ a = b ^^^ 0x80#8 := by
  have hlow : (a ^^^ b).setWidth 7 = 0#7 := by rw [BitVec.setWidth_xor, h, BitVec.xor_self]
  have htop : ∀ x : Byte, x.setWidth 7 = 0#7 → x = 0#8 ∨ x = 0x80#8 := by decide
  exact (htop _ hlow).imp BitVec.xor_eq_zero_iff.1 fun hx => by rw [← hx, BitVec.xor_comm a, ← BitVec.xor_assoc]; simp

/-- The two words of a LOAD differ in bit 7 alone (R41). -/
theorem eq_or_eq_xor_bit7_of_decode_load {w₁ w₂ : Word} {v : Crc} {p : Phase} (h₁ : decode w₁ = .ok (.load v p))
    (h₂ : decode w₂ = .ok (.load v p)) : w₁ = w₂ ∨ w₁ = w₂ ^^^ 0x0080#16 := by
  obtain ⟨hop₁, hrsv₁, hph₁, hdata₁⟩ := decode_eq_load_iff.1 h₁
  obtain ⟨hop₂, hrsv₂, hph₂, hdata₂⟩ := decode_eq_load_iff.1 h₂
  obtain hdata | hdata := eq_or_eq_xor_top_of_setWidth_eq (hdata₁.trans hdata₂.symm)
  · left; apply word_ext_fields <;> simp [*]
  · right; apply word_ext_fields <;> simp [*]

/-- The other word of a LOAD decodes to that LOAD (R41). -/
theorem decode_xor_bit7_of_load {w : Word} {v : Crc} {p : Phase} (h : decode w = .ok (.load v p)) :
    decode (w ^^^ 0x0080#16) = .ok (.load v p) := by
  obtain ⟨hop, hrsv, hph, rfl⟩ := decode_eq_load_iff.1 h
  have htop : (dataField w ^^^ 0x80#8).setWidth 7 = (dataField w).setWidth 7 := by simp [BitVec.setWidth_xor]
  exact decode_eq_load_iff.2 (by simp [hop, hrsv, hph, htop])

/-- Settles O4: each clause of R46 is the case of `decode_cases` with its OP, and only a LOAD has a second word. -/
theorem decodeIsTheRuleOfEveryWord : Obligations.DecodeIsTheRuleOfEveryWord := by
  refine ⟨fun w => ⟨(wellFormedWord_eq_false_iff w).1, fun hwf => ?_⟩, fun w₁ w₂ i h₁ h₂ => ?_,
    fun w v p => decode_xor_bit7_of_load⟩
  · obtain ⟨hop, -, hph, hdata, hlow⟩ := extractLsb_fields w
    obtain ⟨i, hd⟩ := (wellFormedWord_iff_decode_ok w).1 hwf
    rw [hop, hph, hdata, hlow, hd]
    obtain ⟨hop, -, -, -, rfl⟩ | ⟨hop, -, -, rfl⟩ | ⟨hop, -, -, rfl⟩ | ⟨hop, -, -, -, rfl⟩ | ⟨hop, -, rfl⟩ :=
      decode_cases hd <;> simp [hop]
  · by_cases hload : ∃ v p, i = .load v p
    · obtain ⟨v, p, rfl⟩ := hload
      exact (eq_or_eq_xor_bit7_of_decode_load h₁ h₂).imp_right fun h => ⟨⟨v, p, rfl⟩, h⟩
    · have hne : ∀ v p, i ≠ .load v p := fun v p hi => hload ⟨v, p, hi⟩
      exact .inl ((encode_of_decode h₁ hne).symm.trans (encode_of_decode h₂ hne))

/-- Settles O6: each word of a command is what `encode` or `loadWord` writes, and the others are not well formed. -/
theorem encodingExamplesDecode : Obligations.EncodingExamplesDecode := by
  refine ⟨decode_encode .init, decode_encode (.upds 0x31#8), decode_encode (.updb 0xFF#8), decode_encode .final,
    decode_loadWord 0x23#8 .buffer, decode_loadWord 0xFF#8 .single, fun w hw => (wellFormedWord_eq_false_iff w).1 ?_⟩
  fin_cases hw <;> rfl

/-! ### The assembler -/

/-- A line whose operands are accepted gives its words (R48). -/
theorem assemble_eq_some {l : AsmLine} {ws : List Word} (hwf : l.wellFormed = true) (hws : l.words = ws) :
    assemble l = some ws := by
  rw [assemble, if_pos hwf, hws]

/-- A line is refused exactly where it has an operand out of range (R48). -/
theorem assemble_eq_none_iff {l : AsmLine} : assemble l = none ↔ l.wellFormed = false := by
  simp [assemble]

/-! Operands in range, and out of it. -/

@[simp] theorem isByte_toNat (d : Byte) : isByte d.toNat = true := decide_eq_true (Nat.le_of_lt_succ d.isLt)

theorem isByte_of_gt {b : Nat} (h : 255 < b) : isByte b = false := decide_eq_false (Nat.not_le.2 h)

theorem all_isByte_map_toNat (m : List Byte) : (m.map BitVec.toNat).all isByte = true := by simp

theorem all_isByte_of_mem_gt {m : List Nat} (h : ∃ b ∈ m, 255 < b) : m.all isByte = false := by
  obtain ⟨b, hb, hgt⟩ := h
  exact List.all_eq_false.2 ⟨b, hb, by simp [isByte_of_gt hgt]⟩

theorem wellFormed_load_toNat (v : Byte) (p : Phase) : (AsmLine.load v.toNat p.code.toNat).wellFormed = true := by
  simp [AsmLine.wellFormed, Nat.le_of_lt_succ p.code.isLt]

/-! The words of operands in range (R48). -/

@[simp] theorem asmUpds_toNat (d : Byte) : asmUpds d.toNat = encode (.upds d) := by simp [asmUpds, encode]

@[simp] theorem asmUpdb_toNat (d : Byte) : asmUpdb d.toNat = encode (.updb d) := by simp [asmUpdb, encode]

@[simp] theorem asmLoad_toNat (v : Byte) (p : Phase) : asmLoad v.toNat p.code.toNat = loadWord v p := by
  have hphase : BitVec.ofNat 16 (p.code.toNat <<< 8) = p.code.setWidth 16 <<< 8 := by cases p <;> rfl
  simp [asmLoad, loadWord, hphase]

theorem map_asmUpds_toNat (m : List Byte) : (m.map BitVec.toNat).map asmUpds = m.map fun d => encode (.upds d) := by simp

theorem map_asmUpdb_toNat (m : List Byte) : (m.map BitVec.toNat).map asmUpdb = m.map fun d => encode (.updb d) := by simp

/-! The lines of R48 and R49 with operands in range, and the lines with one that is not. -/

theorem assemble_upds (d : Byte) : assemble (.upds d.toNat) = some [encode (.upds d)] :=
  assemble_eq_some (isByte_toNat d) (by rw [AsmLine.words, asmUpds_toNat])

theorem assemble_updb (d : Byte) : assemble (.updb d.toNat) = some [encode (.updb d)] :=
  assemble_eq_some (isByte_toNat d) (by rw [AsmLine.words, asmUpdb_toNat])

theorem assemble_load (v : Byte) (p : Phase) : assemble (.load v.toNat p.code.toNat) = some [loadWord v p] :=
  assemble_eq_some (wellFormed_load_toNat v p) (by rw [AsmLine.words, asmLoad_toNat])

theorem assemble_crcs (m : List Byte) :
    assemble (.crcs (m.map BitVec.toNat)) = some (encode .init :: m.map fun d => encode (.upds d)) :=
  assemble_eq_some (all_isByte_map_toNat m) (by rw [AsmLine.words, map_asmUpds_toNat]; rfl)

theorem assemble_crcb (m : List Byte) : assemble (.crcb (m.map BitVec.toNat)) =
    some (encode .init :: ((m.map fun d => encode (.updb d)) ++ [encode .final])) :=
  assemble_eq_some (all_isByte_map_toNat m) (by rw [AsmLine.words, map_asmUpdb_toNat]; rfl)

theorem assemble_bufupd (m : List Byte) :
    assemble (.bufupd (m.map BitVec.toNat)) = some (m.map fun d => encode (.updb d)) :=
  assemble_eq_some (all_isByte_map_toNat m) (by rw [AsmLine.words, map_asmUpdb_toNat])

/-- SBU's LOAD names FRESH, by its code (R49). -/
theorem assemble_sbu (c d : Byte) : assemble (.sbu c.toNat d.toNat) = some [loadWord c .fresh, encode (.upds d)] :=
  assemble_eq_some (by simp [AsmLine.wellFormed]) (by rw [AsmLine.words, asmUpds_toNat, ← asmLoad_toNat]; rfl)

/-- FIN's LOAD names BUFFER, by its code (R49). -/
theorem assemble_fin (c : Byte) : assemble (.fin c.toNat) = some [loadWord c .buffer, encode .final] :=
  assemble_eq_some (isByte_toNat c) (by rw [AsmLine.words, ← asmLoad_toNat]; rfl)

/-- A byte out of range is refused in every place a byte can stand (R48). -/
theorem assemble_of_byte_gt {b : Nat} (hb : 255 < b) (n : Nat) :
    assemble (.upds b) = none ∧ assemble (.updb b) = none ∧ assemble (.load b n) = none ∧
      assemble (.sbu b n) = none ∧ assemble (.sbu n b) = none ∧ assemble (.fin b) = none := by
  simp [assemble_eq_none_iff, AsmLine.wellFormed, isByte_of_gt hb]

/-- A string with a byte out of range is refused in every place a string can stand (R48, R49). -/
theorem assemble_of_mem_gt {m : List Nat} (hm : ∃ b ∈ m, 255 < b) :
    assemble (.crcs m) = none ∧ assemble (.crcb m) = none ∧ assemble (.bufupd m) = none := by
  have hall : m.all isByte = false := all_isByte_of_mem_gt hm
  exact ⟨assemble_eq_none_iff.2 hall, assemble_eq_none_iff.2 hall, assemble_eq_none_iff.2 hall⟩

/-- An unknown phase is refused, whatever the byte (R48). -/
theorem assemble_load_of_phase_gt {p : Nat} (hp : 3 < p) (b : Nat) : assemble (.load b p) = none := by
  simp [assemble_eq_none_iff, AsmLine.wellFormed, hp]

/-- Settles O8: each line by its lemma. -/
theorem assemblerEncodesAndExpands : Obligations.AssemblerEncodesAndExpands :=
  ⟨⟨rfl, rfl⟩, fun d => ⟨assemble_upds d, assemble_updb d⟩, fun v p => ⟨assemble_load v p, decode_loadWord v p⟩,
    fun m => ⟨assemble_crcs m, assemble_crcb m, assemble_bufupd m⟩, fun c d => ⟨assemble_sbu c d, assemble_fin c⟩,
    fun _ n hb => assemble_of_byte_gt hb n, fun _ hm => assemble_of_mem_gt hm, fun b _ hp => assemble_load_of_phase_gt hp b⟩

/-! ### A rejected word at the port -/

/-- A word that is not well formed has the verdict ILLEGAL in every phase (R85). -/
theorem verdict_of_not_wellFormed {w : Word} (h : wellFormedWord w = false) (s : State) : verdict w s = some .illegal := by
  obtain ⟨e, he⟩ := (wellFormedWord_eq_false_iff w).1 h
  simp [verdict, he]

/-- The step rejects the word at the port for its verdict (R75, R83). -/
theorem step_of_verdict {s : State} {rest : List HostAction} {w : Word} {c : Cause} (hp : s.port = .command w :: rest)
    (hv : verdict w s = some c) : step s = .next (s.afterRejection rest w c) := by
  have hv' : verdict w (takeWord rest s) = some c := (verdict_congr rfl).trans hv
  rw [step_of_command hp, acceptWord_eq, hv', ← reject_takeWord]

/-- The state a rejection leaves is what R83 and R84 say of one. -/
theorem rejectedWith_afterRejection (s : State) (rest : List HostAction) (w : Word) (c : Cause) :
    RejectedWith s (s.afterRejection rest w c) rest w c := by
  rw [← reject_takeWord]
  exact ⟨rfl, rfl, fun h => if_pos h, fun h => if_neg h, rfl, _, rfl, rfl, rfl⟩

/-- No word with an unassigned OP is well formed (R43, R44). -/
theorem not_wellFormed_of_unassignedOp {w : Word} (h : opField w = 0x0#4 ∨ 0x6#4 ≤ opField w) :
    wellFormedWord w = false := by
  have hop : ∀ op : BitVec 4, (op = 0x0#4 ∨ 0x6#4 ≤ op) →
      op ≠ 0x1#4 ∧ op ≠ 0x2#4 ∧ op ≠ 0x3#4 ∧ op ≠ 0x4#4 ∧ op ≠ 0x5#4 := by decide
  rw [← Bool.not_eq_true, wellFormedWord_iff]
  simp [hop _ h]

/-- Settles O7: such a word is not well formed, so the step rejects it with ILLEGAL. -/
theorem unassignedOpIsRejected : Obligations.UnassignedOpIsRejected := fun s rest _ hp hop =>
  ⟨_, step_of_verdict hp (verdict_of_not_wellFormed (not_wellFormed_of_unassignedOp hop) s),
    rejectedWith_afterRejection s rest _ _⟩

end Sys2Proof.Machine
end

section
/-! PROOFS. INIT and LOAD: what each leaves from every state, a word of each OP at the port, and LOAD of what the output ports
showed. -/

namespace Sys2Proof.Machine

/-! ### The two commands that every state performs -/

/-- Settles O9: the check of R73 lets INIT through in every phase. -/
theorem initCompletes : Obligations.InitCompletes := fun _ => exec_of_ok (check_init _)

/-- Settles O10: the check of R73 lets LOAD through in every phase. -/
theorem loadCompletes : Obligations.LoadCompletes := fun _ _ _ => exec_of_ok (check_load _ _ _)

/-! ### A word at the port -/

/-- The step performs the command at the port where the check lets it through (R75). -/
theorem step_of_ok {s : State} {rest : List HostAction} {w : Word} {i : Instr} (hp : s.port = .command w :: rest)
    (hd : decode w = .ok i) (hc : check s.phase i = none) : step s = .next (performed i (takeWord rest s)) := by
  rw [step_of_command hp, acceptWord, hd]
  exact exec_of_ok (s := takeWord rest s) hc

/-- A word that is not well formed is rejected with ILLEGAL in every PHASE (R83, R85). -/
theorem step_of_not_wellFormed {s : State} {rest : List HostAction} {w : Word} (hp : s.port = .command w :: rest)
    (hwf : wellFormedWord w = false) : step s = .next (s.afterRejection rest w .illegal) :=
  step_of_verdict hp (verdict_of_not_wellFormed hwf s)

/-- The word of INIT is performed in every PHASE and ERRCAUSE (R52, R73). -/
theorem step_of_init {s : State} {rest : List HostAction} (hp : s.port = .command 0x1000#16 :: rest) :
    step s = .next (s.afterPerforming rest 0x00#7 .fresh .none) :=
  step_of_ok hp (decode_encode .init) (check_init _)

/-- A word that decodes to LOAD is performed in every PHASE, and ERRCAUSE is kept (R53, R73). -/
theorem step_of_load {s : State} {rest : List HostAction} {w : Word} {v : Crc} {p : Phase}
    (hp : s.port = .command w :: rest) (hd : decode w = .ok (.load v p)) :
    step s = .next (s.afterPerforming rest v p s.errcause) :=
  step_of_ok hp hd (check_load _ _ _)

/-! ### The words with the OP of INIT and of LOAD -/

/-- Of the words with INIT's OP, only the one with zeros in every other field is well formed (R43). -/
theorem not_wellFormed_of_ne_init {w : Word} (hop : opField w = 0x1#4) (hw : w ≠ 0x1000#16) :
    wellFormedWord w = false := by
  refine Bool.eq_false_of_not_eq_true fun hwf => hw ?_
  obtain ⟨hrsv, hph, hdata⟩ : rsvField w = 0#2 ∧ phField w = 0#2 ∧ dataField w = 0#8 := by
    simpa [wellFormedWord_iff, hop] using hwf
  apply word_ext_fields (v := encode .init) <;> simp [*]

/-- A word with RSV not zero is not well formed (R43). -/
theorem not_wellFormed_of_rsv {w : Word} (hrsv : rsvField w ≠ 0#2) : wellFormedWord w = false :=
  Bool.eq_false_of_not_eq_true fun hwf => hrsv ((wellFormedWord_iff w).1 hwf).1

/-- Settles O16: 0x1000 is the word of INIT, and no other word with its OP is well formed. -/
theorem initWordAtThePort : Obligations.InitWordAtThePort := by
  intro s rest w hp hop
  constructor
  · rintro rfl
    exact step_of_init hp
  · intro hw
    exact step_of_not_wellFormed hp (not_wellFormed_of_ne_init hop hw)

/-- Settles O17: a word with LOAD's OP decodes to a LOAD if RSV is zero, and is not well formed otherwise. -/
theorem loadWordAtThePort : Obligations.LoadWordAtThePort := by
  refine ⟨⟨rfl, rfl, rfl, rfl⟩, fun s rest w hp hop => ⟨fun hrsv => ?_, fun hrsv => ?_⟩⟩
  · obtain ⟨-, -, hph, -, hlow⟩ := extractLsb_fields w
    rw [hph, hlow]
    exact step_of_load hp (decode_of_load_fields hop hrsv)
  · exact step_of_not_wellFormed hp (not_wellFormed_of_rsv hrsv)

/-! ### LOAD of what the outputs showed -/

/-- The low seven bits of crc_out are CRC (R18). -/
@[simp] theorem setWidth_crcOut (s : State) : (crcOut s).setWidth 7 = s.crc :=
  BitVec.setWidth_append_eq_right

/-- Settles O3: the word is the host's LOAD of crc_out and of the phase that status_out shows. -/
theorem loadRestoresWhatTheOutputsShowed : Obligations.LoadRestoresWhatTheOutputsShowed := by
  intro s u rest hp
  rw [statusOut_phase] at hp
  have hd : decode (loadWord (crcOut s) s.phase) = .ok (.load s.crc s.phase) := by
    rw [decode_loadWord, setWidth_crcOut]
  exact step_of_load hp hd

end Sys2Proof.Machine
end

section
/-! PROOFS. UPDS: its word at the port, step S by its formula, UPDS as division by P with its table form, its linearity and its
inverse, and the single-byte protocol over a message. -/

namespace Sys2Proof.Machine

/-! ### The command, and its word at the port -/

/-- UPDS is the loop of eight steps S, written out (R55). -/
theorem updsByte_eq_forEachBit (r : Crc) (d : Byte) : updsByte r d = forEachBit stepS r d := rfl

/-- Settles O11: the check of R73 lets UPDS through in both phases. -/
theorem updsCompletes : Obligations.UpdsCompletes := by
  intro s d hphase
  rw [exec_of_ok (check_upds_of_phase hphase.symm d), ← updsByte_eq_forEachBit]
  rfl

/-- A word with UPDS's OP is a UPDS if RSV and PH are zero, whatever its DATA (R46). -/
theorem decode_of_upds_fields {w : Word} (hop : opField w = 0x2#4) (hrsv : rsvField w = 0#2) (hph : phField w = 0#2) :
    decode w = .ok (.upds (dataField w)) := by
  simp [decode, checkFields, hop, hrsv, hph]

/-- A word with PH not zero is well formed in a LOAD only (R42, R43). -/
theorem not_wellFormed_of_ph {w : Word} (hop : opField w ≠ 0x5#4) (hph : phField w ≠ 0#2) : wellFormedWord w = false := by
  rw [← Bool.not_eq_true, wellFormedWord_iff]
  simp [hop, hph]

/-- The verdict of a word that decodes is the check's (R73, R82). -/
theorem verdict_of_decode {w : Word} {i : Instr} (hd : decode w = .ok i) (s : State) : verdict w s = check s.phase i := by
  rw [verdict, hd]

/-- Settles O18: with PH or RSV not zero the word is not well formed; else it decodes to UPDS, and the check of R73 decides. -/
theorem updsWordAtThePort : Obligations.UpdsWordAtThePort := by
  intro s rest w hp hop
  constructor
  · rintro (hph | hrsv)
    · exact step_of_not_wellFormed hp (not_wellFormed_of_ph (by simp [hop]) hph)
    · exact step_of_not_wellFormed hp (not_wellFormed_of_rsv hrsv)
  · intro hph hrsv
    have hd : decode w = .ok (.upds (dataField w)) := decode_of_upds_fields hop hrsv hph
    refine ⟨fun hphase => ?_, fun hphase => ?_, fun hphase => ?_⟩
    · exact step_of_ok hp hd (check_upds_of_phase hphase.symm _)
    · exact step_of_verdict hp (by rw [verdict_of_decode hd, hphase]; rfl)
    · exact step_of_verdict hp (by rw [verdict_of_decode hd, hphase]; rfl)

/-! ### Step S -/

/-- The register's low six bits with a zero bit below them are the register shifted (R54). -/
theorem extractLsb_append_zero (r : Crc) : r.extractLsb 5 0 ++ 0#1 = r <<< 1 :=
  (BitVec.shiftLeft_eq_concat_of_lt (x := r) (n := 1) (by decide)).symm

/-- P has a coefficient 1 at x^0 and the shift has none, so the new bit 0 is the feedback bit (R54). -/
theorem stepS_bit_zero (r : Crc) (b : Bool) : (stepS r b).getLsbD 0 = (r.getLsbD 6 ^^ b) := by
  rw [stepS_eq_xor]
  cases r.getLsbD 6 ^^ b <;> simp [poly]

/-- Settles O14: the formula's concatenation is the shift, and `stepS_bit_zero`. -/
theorem stepSIsItsFormula : Obligations.StepSIsItsFormula := by
  intro r b
  rw [extractLsb_append_zero]
  exact ⟨rfl, stepS_bit_zero r b⟩

/-- Step S forgets nothing: bit 0 of its result shows the feedback bit, and with it the bit that was shifted out (R59). -/
theorem stepS_injective (b : Bool) : Function.Injective fun r => stepS r b := by
  intro r r' (h : stepS r b = stepS r' b)
  have htop : r.getLsbD 6 = r'.getLsbD 6 := by
    have hbit := congrArg (fun t => t.getLsbD 0) h
    simpa only [stepS_bit_zero, Bool.xor_left_inj] using hbit
  have hshift : r <<< 1 = r' <<< 1 := by
    simpa only [stepS_eq_xor, htop, BitVec.xor_left_inj] using h
  apply BitVec.eq_of_getLsbD_eq
  intro i hi
  obtain rfl | hlow : i = 6 ∨ i + 1 < 7 := by omega
  · exact htop
  · simpa [hlow, hi] using congrArg (fun t => t.getLsbD (i + 1)) hshift

/-! ### Sums, shifts and Horner's rule mod P -/

/-- The remainder of a sum is the sum of the remainders (R8). -/
theorem IsRemainder.xor {u v r t : Nat} (hu : IsRemainder u r) (hv : IsRemainder v t) :
    IsRemainder (u ^^^ v) (r ^^^ t) := by
  obtain ⟨hr, p, rfl⟩ := hu
  obtain ⟨ht, q, rfl⟩ := hv
  refine ⟨Nat.xor_lt_two_pow (n := 7) hr ht, p ^^^ q, ?_⟩
  rw [timesP_xor]
  ac_rfl

/-- In u·x^k + w, u may be replaced by its remainder (R8). -/
theorem IsRemainder.shift_xor {u r k w t : Nat} (hu : IsRemainder u r) (h : IsRemainder (r <<< k ^^^ w) t) :
    IsRemainder (u <<< k ^^^ w) t := by
  obtain ⟨-, p, rfl⟩ := hu
  obtain ⟨ht, q, hq⟩ := h
  refine ⟨ht, p <<< k ^^^ q, ?_⟩
  rw [Nat.shiftLeft_xor_distrib, Nat.xor_assoc, hq, timesP_xor, timesP_shiftLeft, Nat.xor_assoc]

/-- Two register values that are remainders of one polynomial are equal (R8). -/
theorem IsRemainder.crc_eq {v : Nat} {r r' : Crc} (h : IsRemainder v r.toNat) (h' : IsRemainder v r'.toNat) : r = r' :=
  BitVec.eq_of_toNat_eq (h'.unique h)

/-- Coefficients of `k` bits each as one polynomial, the first one highest (R6, R60). -/
def horner {α : Type} (k : Nat) (val : α → Nat) (l : List α) : Nat := l.foldl (fun v a => v <<< k ^^^ val a) 0

theorem horner_append_singleton {α : Type} (k : Nat) (val : α → Nat) (l : List α) (a : α) :
    horner k val (l ++ [a]) = horner k val l <<< k ^^^ val a := by
  simp [horner]

/-- A datum is the polynomial of its bits, d[7] highest (R8, R31). -/
theorem horner_datumBits (d : Byte) : horner 1 Bool.toNat (datumBits d) = d.toNat := by
  revert d; decide

/-- M(x) is the polynomial of the message's bytes (R60). -/
theorem messagePoly_eq_horner (m : List Byte) : messagePoly m = horner 8 BitVec.toNat m := rfl

/-- Horner's rule mod P: if `f` takes r to r·x^k + a·x^j, its fold over `l` takes r to r·x^(k·n) + l(x)·x^j (R57, R60). -/
theorem isRemainder_foldl {α : Type} {f : Crc → α → Crc} {val : α → Nat} {k j : Nat}
    (hf : ∀ r a, IsRemainder (r.toNat <<< k ^^^ val a <<< j) (f r a).toNat) (r : Crc) (l : List α) :
    IsRemainder (r.toNat <<< (k * l.length) ^^^ horner k val l <<< j) (l.foldl f r).toNat := by
  induction l using List.reverseRecOn with
  | nil => simpa [horner] using isRemainder_self r.isLt
  | append_singleton l a ih =>
    have hsum : r.toNat <<< (k * (l ++ [a]).length) ^^^ horner k val (l ++ [a]) <<< j =
        (r.toNat <<< (k * l.length) ^^^ horner k val l <<< j) <<< k ^^^ val a <<< j := by
      simp only [horner_append_singleton, List.length_append, List.length_singleton, Nat.mul_succ,
        Nat.shiftLeft_xor_distrib, ← Nat.shiftLeft_add, Nat.xor_assoc, Nat.add_comm j]
    rw [hsum, List.foldl_append]
    exact ih.shift_xor (hf _ a)

/-! ### UPDS as division by P -/

/-- StepS(r, b) = r(x)·x + b·x^7 mod P (R57). -/
theorem isRemainder_stepS (r : Crc) (b : Bool) :
    IsRemainder (r.toNat <<< 1 ^^^ b.toNat <<< 7) (stepS r b).toNat := ⟨(stepS r b).isLt, _, stepS_timesP r b⟩

/-- UPDS(r, d) = r(x)·x^8 + d(x)·x^7 mod P (R57). -/
theorem isRemainder_updsByte (r : Crc) (d : Byte) :
    IsRemainder (r.toNat <<< 8 ^^^ d.toNat <<< 7) (updsByte r d).toNat := by
  have h := isRemainder_foldl isRemainder_stepS r (datumBits d)
  rwa [horner_datumBits] at h

/-- From a seed r over n bytes, UPDS gives r(x)·x^(8n) + M(x)·x^7 mod P (R60, R69). -/
theorem isRemainder_foldl_updsByte (r : Crc) (m : List Byte) :
    IsRemainder (r.toNat <<< (8 * m.length) ^^^ messagePoly m <<< 7) (m.foldl updsByte r).toNat :=
  isRemainder_foldl isRemainder_updsByte r m

/-- Settles O23: the step by `stepS_timesP`, and eight steps by Horner's rule. -/
theorem singleByteUpdateIsDivisionByP : Obligations.SingleByteUpdateIsDivisionByP :=
  ⟨isRemainder_stepS, isRemainder_updsByte⟩

/-- T[v] = v(x)·x^7 mod P (R58). -/
theorem isRemainder_updsByte_zero_crc (v : Byte) : IsRemainder (v.toNat <<< 7) (updsByte 0#7 v).toNat := by
  simpa using isRemainder_updsByte 0#7 v

/-- UPDS(r, 0) = r(x)·x^8 mod P (R59). -/
theorem isRemainder_updsByte_zero_datum (r : Crc) : IsRemainder (r.toNat <<< 8) (updsByte r 0#8).toNat := by
  simpa using isRemainder_updsByte r 0#8

/-- `(r << 1) ^ d` is the 8-bit value of r(x)·x + d(x) (R58). -/
theorem toNat_tableIndex (r : Crc) (d : Byte) :
    ((r.setWidth 8 <<< 1) ^^^ d).toNat = r.toNat <<< 1 ^^^ d.toNat := by
  have hr : r.toNat <<< 1 < 2 ^ 8 := by have := r.isLt; omega
  have hw : r.toNat % 2 ^ 8 = r.toNat := Nat.mod_eq_of_lt (by omega)
  rw [BitVec.toNat_xor, BitVec.toNat_shiftLeft, BitVec.toNat_setWidth, hw, Nat.mod_eq_of_lt hr]

/-- UPDS by its table: r(x)·x^8 + d(x)·x^7 = (r(x)·x + d(x))·x^7 (R58). -/
theorem updsByte_eq_table (r : Crc) (d : Byte) : updsByte r d = updsByte 0#7 ((r.setWidth 8 <<< 1) ^^^ d) := by
  have h := isRemainder_updsByte_zero_crc ((r.setWidth 8 <<< 1) ^^^ d)
  rw [toNat_tableIndex, Nat.shiftLeft_xor_distrib, ← Nat.shiftLeft_add] at h
  exact (isRemainder_updsByte r d).crc_eq h

/-- Settles O25: both sides of the table law are remainders of one polynomial. -/
theorem singleByteUpdateTableForm : Obligations.SingleByteUpdateTableForm :=
  ⟨updsByte_eq_table, isRemainder_updsByte_zero_crc⟩

/-! ### UPDS is linear and invertible -/

/-- UPDS is linear, as the polynomial it reduces is (R59). -/
theorem updsByte_xor (r₁ r₂ : Crc) (d₁ d₂ : Byte) :
    updsByte (r₁ ^^^ r₂) (d₁ ^^^ d₂) = updsByte r₁ d₁ ^^^ updsByte r₂ d₂ := by
  have h := (isRemainder_updsByte r₁ d₁).xor (isRemainder_updsByte r₂ d₂)
  have hsum : (r₁ ^^^ r₂).toNat <<< 8 ^^^ (d₁ ^^^ d₂).toNat <<< 7 =
      (r₁.toNat <<< 8 ^^^ d₁.toNat <<< 7) ^^^ (r₂.toNat <<< 8 ^^^ d₂.toNat <<< 7) := by
    simp only [BitVec.toNat_xor, Nat.shiftLeft_xor_distrib]
    ac_rfl
  rw [← hsum, ← BitVec.toNat_xor] at h
  exact (isRemainder_updsByte _ _).crc_eq h

/-- Register and datum enter UPDS apart (R59). -/
theorem updsByte_eq_xor (r : Crc) (d : Byte) : updsByte r d = updsByte r 0#8 ^^^ updsByte 0#7 d := by
  rw [← updsByte_xor, BitVec.xor_zero, BitVec.zero_xor]

/-- With a zero bit the two steps are one (R54, R61). -/
theorem stepS_false (r : Crc) : stepS r false = stepB r false := by
  simp [stepS_eq_xor, stepB_eq_xor]

/-- With a zero datum the two updates are one (R59, R64). -/
theorem updsByte_zero_datum (r : Crc) : updsByte r 0#8 = updbByte r 0#8 := by
  have hbits : datumBits 0#8 = List.replicate 8 false := rfl
  simp only [updsByte, updbByte, hbits, List.replicate, List.foldl, stepS_false]

/-- A fold of injective steps is injective in its start. -/
theorem injective_foldl {α β : Type} {f : β → α → β} (hf : ∀ a, Function.Injective fun r => f r a) (l : List α) :
    Function.Injective fun r => l.foldl f r := by
  induction l with
  | nil => exact Function.injective_id
  | cons a l ih => exact ih.comp (hf a)

/-- UPDS permutes the register's values, since each of its eight steps loses nothing (R59). -/
theorem updsByte_bijective (d : Byte) : Function.Bijective fun r => updsByte r d :=
  Finite.injective_iff_bijective.1 (injective_foldl stepS_injective (datumBits d))

/-- Settles O26: linearity by uniqueness of the remainder, and the bijection from step S being injective. -/
theorem singleByteUpdateLinearAndInvertible : Obligations.SingleByteUpdateLinearAndInvertible :=
  ⟨updsByte_xor, updsByte_eq_xor, fun r => ⟨isRemainder_updsByte_zero_datum r, updsByte_zero_datum r⟩,
    updsByte_bijective⟩

/-- Settles O30: the low seven bits of the source's working register are the block's at every round. -/
theorem singleByteUpdateMatchesTheSource : Obligations.SingleByteUpdateMatchesTheSource := by
  intro W hW crc datum
  rw [sourceSBU_eq_updsByte hW]
  rfl

/-! ### The single-byte protocol -/

/-- A run of two lists of words is the run of the first and then, from where that ends, of the second (R78). -/
theorem runWords_append {ws : List Word} {s t : State} (h : runWords ws s = .next t) (vs : List Word) :
    runWords (ws ++ vs) s = runWords vs t := by
  induction ws generalizing s with
  | nil =>
    obtain rfl := Host.Outcome.next.inj h
    rfl
  | cons w ws ih =>
    obtain ⟨u, -, hstep, hrun⟩ := runWords_cons w ws s
    obtain ⟨u', -, hstep', hrun'⟩ := runWords_cons w (ws ++ vs) s
    obtain rfl := Host.Outcome.next.inj (hstep.symm.trans hstep')
    rw [List.cons_append, hrun']
    exact ih (hrun.symm.trans h)

/-- A run of UPDS over a message folds the bytes into CRC, first byte first, rejects nothing, and ends in SINGLE if there was a
byte (R30, R55, R74). -/
theorem runWords_upds (m : List Byte) {s : State} (hp : s.phase = .single ∨ s.phase = .fresh) :
    ∃ t, runWords (m.map fun d => encode (.upds d)) s = .next t ∧ t.crc = m.foldl updsByte s.crc ∧
      t.rejected = s.rejected ∧ t.phase = if m = [] then s.phase else .single := by
  induction m generalizing s with
  | nil => exact ⟨s.offering [], rfl, rfl, rfl, rfl⟩
  | cons d m ih =>
    rw [List.map_cons, runWords_cons_of_ok (decode_encode _) (check_upds_of_phase hp d)]
    obtain ⟨t, hrun, hcrc, hrej, hphase⟩ := ih (s := performed (.upds d) (takeWord [] s)) (.inl rfl)
    exact ⟨t, hrun, hcrc, hrej, hphase.trans (ite_self _)⟩

/-- INIT and a run of UPDS: the same from the seed 0 and PHASE FRESH, whatever the state before (R52, R60). -/
theorem runWords_init_upds (m : List Byte) (s : State) :
    ∃ t, runWords (encode .init :: m.map fun d => encode (.upds d)) s = .next t ∧ t.crc = m.foldl updsByte 0#7 ∧
      t.rejected = s.rejected ∧ t.phase = if m = [] then .fresh else .single := by
  rw [runWords_cons_of_ok (decode_encode _) (check_init _)]
  exact runWords_upds m (s := performed .init (takeWord [] s)) (.inr rfl)

/-- UPDS over a message from the seed 0 gives M(x)·x^7 mod P (R60). -/
theorem isRemainder_crcS (m : List Byte) : IsRemainder (messagePoly m <<< 7) (m.foldl updsByte 0#7).toNat := by
  simpa using isRemainder_foldl_updsByte 0#7 m

/-- UPDS over "123456789" from the seed 0 (R14, R60). -/
theorem foldl_updsByte_checkMessage : checkMessage.foldl updsByte 0#7 = 0x04#7 := by
  simp [checkMessage, updsByte, datumBits, stepS, poly]

/-- Settles O47: the run folds UPDS over the message, a run may be cut anywhere, and the check value is the fold over
"123456789". -/
theorem singleByteProtocolComputesTheCrc : Obligations.SingleByteProtocolComputesTheCrc := by
  refine ⟨fun s m => ?_, fun s a b => ?_, ?_⟩
  · obtain ⟨t, hrun, hcrc, hrej, hphase⟩ := runWords_init_upds m s
    refine ⟨t, hrun, hcrc ▸ isRemainder_crcS m, hrej, ?_, hphase⟩
    rintro rfl
    exact hcrc
  · obtain ⟨t, ht, -⟩ := runWords_init_upds a s
    obtain ⟨u, hu, -⟩ := runWords_init_upds (a ++ b) s
    have hcut := runWords_append ht (b.map fun d => encode (.upds d))
    rw [List.cons_append, ← List.map_append, hu] at hcut
    exact ⟨t, u, ht, hcut.symm, hu⟩
  · have h := isRemainder_crcS checkMessage
    rwa [foldl_updsByte_checkMessage] at h

end Sys2Proof.Machine
end

section
/-! PROOFS. UPDB and FINAL: their words at the port, step B by its formula, both commands as division by P, FINAL as a
permutation of order 9, the two update styles against each other, and the buffer protocol over a message. -/

namespace Sys2Proof.Machine

/-! ### The commands, and their words at the port -/

/-- UPDB is the loop of eight steps B, written out (R63). -/
theorem updbByte_eq_forEachBit (r : Crc) (d : Byte) : updbByte r d = forEachBit stepB r d := rfl

/-- FINAL is its seven rounds, written out (R66). -/
theorem finalRounds_eq_sevenRounds (r : Crc) : finalRounds r = sevenRounds (fun r => stepB r false) r := rfl

/-- FINAL is performed in BUFFER and FRESH (R73). -/
theorem check_final_of_phase {p : Phase} (hp : p = .buffer ∨ p = .fresh) : check p .final = none := by
  rcases hp with rfl | rfl <;> rfl

/-- Settles O12: the check of R73 lets UPDB through in both phases. -/
theorem updbCompletes : Obligations.UpdbCompletes := by
  intro s d hphase
  rw [exec_of_ok (check_updb_of_phase hphase.symm d), ← updbByte_eq_forEachBit]
  rfl

/-- Settles O13: the check of R73 lets FINAL through in both phases. -/
theorem finalCompletes : Obligations.FinalCompletes := by
  intro s hphase
  rw [exec_of_ok (check_final_of_phase hphase.symm), ← finalRounds_eq_sevenRounds]
  rfl

/-- The step rejects the command at the port for the cause the check of R73 names (R75, R83). -/
theorem step_of_rejected {s : State} {rest : List HostAction} {w : Word} {i : Instr} {c : Cause}
    (hp : s.port = .command w :: rest) (hd : decode w = .ok i) (hc : check s.phase i = some c) :
    step s = .next (s.afterRejection rest w c) :=
  step_of_verdict hp ((verdict_of_decode hd s).trans hc)

/-- A word with UPDB's OP is a UPDB if RSV and PH are zero, whatever its DATA (R46). -/
theorem decode_of_updb_fields {w : Word} (hop : opField w = 0x3#4) (hrsv : rsvField w = 0#2) (hph : phField w = 0#2) :
    decode w = .ok (.updb (dataField w)) := by
  simp [decode, checkFields, hop, hrsv, hph]

/-- Of the words with FINAL's OP, only the one with zeros in every other field is well formed (R43). -/
theorem not_wellFormed_of_ne_final {w : Word} (hop : opField w = 0x4#4) (hw : w ≠ 0x4000#16) :
    wellFormedWord w = false := by
  refine Bool.eq_false_of_not_eq_true fun hwf => hw ?_
  obtain ⟨i, hd⟩ := (wellFormedWord_iff_decode_ok w).1 hwf
  obtain ⟨-, -, -, rfl⟩ : rsvField w = 0#2 ∧ phField w = 0#2 ∧ dataField w = 0#8 ∧ i = .final := by
    simpa [hop] using decode_cases hd
  exact (encode_of_decode hd (by simp)).symm

/-! ### UPDB and FINAL as division by P -/

/-- StepB(r, b) = r(x)·x + b mod P (R64). -/
theorem isRemainder_stepB (r : Crc) (b : Bool) :
    IsRemainder (r.toNat <<< 1 ^^^ b.toNat) (stepB r b).toNat := ⟨(stepB r b).isLt, _, stepB_timesP r b⟩

/-- UPDB(r, d) = r(x)·x^8 + d(x) mod P (R64). -/
theorem isRemainder_updbByte (r : Crc) (d : Byte) :
    IsRemainder (r.toNat <<< 8 ^^^ d.toNat) (updbByte r d).toNat := by
  have h := isRemainder_foldl (val := Bool.toNat) (j := 0) isRemainder_stepB r (datumBits d)
  rwa [horner_datumBits] at h

/-- From a seed r over n bytes, UPDB gives r(x)·x^(8n) + M(x) mod P (R68, R69). -/
theorem isRemainder_foldl_updbByte (r : Crc) (m : List Byte) :
    IsRemainder (r.toNat <<< (8 * m.length) ^^^ messagePoly m) (m.foldl updbByte r).toNat :=
  isRemainder_foldl (j := 0) isRemainder_updbByte r m

/-- FINAL(r) = r(x)·x^7 mod P (R67). -/
theorem isRemainder_finalRounds (r : Crc) : IsRemainder (r.toNat <<< 7) (finalRounds r).toNat := by
  have h := isRemainder_foldl (val := Bool.toNat) (j := 0) isRemainder_stepB r finalBits
  simpa [finalRounds, horner, finalBits] using h

/-- FINAL multiplies the polynomial whose remainder it starts from by x^7 (R8, R67). -/
theorem IsRemainder.shift_finalRounds {u : Nat} {r : Crc} (h : IsRemainder u r.toNat) :
    IsRemainder (u <<< 7) (finalRounds r).toNat := by
  simpa using h.shift_xor (w := 0) (by simpa using isRemainder_finalRounds r)

/-- UPDB(0, d) = d(x) mod P (R64). -/
theorem isRemainder_updbByte_zero_crc (d : Byte) : IsRemainder d.toNat (updbByte 0#7 d).toNat := by
  simpa using isRemainder_updbByte 0#7 d

/-- UPDB(r, 0) = r(x)·x^8 mod P (R64). -/
theorem isRemainder_updbByte_zero_datum (r : Crc) : IsRemainder (r.toNat <<< 8) (updbByte r 0#8).toNat := by
  simpa using isRemainder_updbByte r 0#8

/-- A datum of degree below 7 is its own remainder, and one of degree 7 leaves what one subtraction of P leaves (R63, R64). -/
theorem updbByte_zero_crc (d : Byte) : (updbByte 0#7 d).setWidth 8 = if d < 0x80#8 then d else d ^^^ 0xB7#8 := by
  have hrem : IsRemainder d.toNat (if d < 0x80#8 then d else d ^^^ 0xB7#8).toNat := by
    split
    · next hlow => exact isRemainder_self hlow
    · next htop =>
      have hlt : ∀ d : Byte, ¬ d < 0x80#8 → (d ^^^ 0xB7#8).toNat < 128 := by decide
      refine ⟨hlt d htop, 1, ?_⟩
      rw [BitVec.toNat_xor, Nat.xor_comm d.toNat]
      exact (Nat.xor_xor_cancel_left _ _).symm
  apply BitVec.eq_of_toNat_eq
  rw [BitVec.toNat_setWidth_of_le (by decide)]
  exact hrem.unique (isRemainder_updbByte_zero_crc d)

/-- Register and datum enter UPDB apart (R64). -/
theorem updbByte_eq_xor (r : Crc) (d : Byte) : updbByte r d = updbByte r 0#8 ^^^ updbByte 0#7 d := by
  have h := (isRemainder_updbByte_zero_datum r).xor (isRemainder_updbByte_zero_crc d)
  rw [← BitVec.toNat_xor] at h
  exact (isRemainder_updbByte r d).crc_eq h

/-- Settles O24: the step by `stepB_timesP`, eight steps by Horner's rule, and the rest by uniqueness of the remainder. -/
theorem bufferUpdateIsDivisionByP : Obligations.BufferUpdateIsDivisionByP :=
  ⟨isRemainder_stepB, isRemainder_updbByte, updbByte_zero_crc, updbByte_eq_xor, fun r =>
    ⟨(updsByte_zero_datum r).symm, isRemainder_updbByte_zero_datum r⟩⟩

/-- Settles O19: with PH or RSV not zero the word is not well formed; else it decodes to UPDB, and the check of R73 decides. -/
theorem updbWordAtThePort : Obligations.UpdbWordAtThePort := by
  refine ⟨fun s rest w hp hop => ⟨?_, fun hph hrsv => ?_⟩, updbByte_zero_crc⟩
  · rintro (hph | hrsv)
    · exact step_of_not_wellFormed hp (not_wellFormed_of_ph (by simp [hop]) hph)
    · exact step_of_not_wellFormed hp (not_wellFormed_of_rsv hrsv)
  · have hd : decode w = .ok (.updb (dataField w)) := decode_of_updb_fields hop hrsv hph
    refine ⟨fun hphase => ?_, fun hphase => ?_, fun hphase => ?_⟩
    · exact step_of_ok hp hd (check_updb_of_phase hphase.symm _)
    · exact step_of_rejected hp hd (by rw [hphase]; rfl)
    · exact step_of_rejected hp hd (by rw [hphase]; rfl)

/-- Settles O20: 0x4000 is the word of FINAL, where the check of R73 decides, and no other word with its OP is well formed. -/
theorem finalWordAtThePort : Obligations.FinalWordAtThePort := by
  refine ⟨fun s rest w hp hop => ⟨fun hw => ?_, ?_⟩, by decide⟩
  · exact step_of_not_wellFormed hp (not_wellFormed_of_ne_final hop hw)
  · rintro rfl
    have hd : decode 0x4000#16 = .ok .final := decode_encode .final
    refine ⟨fun hphase => ?_, fun hphase => ?_, fun hphase => ?_⟩
    · exact step_of_ok hp hd (check_final_of_phase hphase.symm)
    · exact step_of_rejected hp hd (by rw [hphase]; rfl)
    · exact step_of_rejected hp hd (by rw [hphase]; rfl)

/-! ### Step B -/

/-- The register's low six bits with the input bit below them are the register shifted, with the bit in the free place (R61). -/
theorem extractLsb_append_ofBool (r : Crc) (b : Bool) :
    r.extractLsb 5 0 ++ BitVec.ofBool b = (r <<< 1) ||| (BitVec.ofBool b).setWidth 7 := by
  rw [← extractLsb_append_zero, BitVec.append_def, BitVec.append_def]
  simp

/-- Settles O15: the formula's concatenation is the shift with the input bit OR-ed in. -/
theorem stepBIsItsFormula : Obligations.StepBIsItsFormula := by
  intro r b
  rw [extractLsb_append_ofBool]
  rfl

/-- Settles O31: the low seven bits of the source's working register are the block's at every round. -/
theorem bufferUpdateMatchesTheSource : Obligations.BufferUpdateMatchesTheSource := by
  intro W hW crc byte
  rw [sourceBUByte_eq_updbByte hW]
  rfl

/-! ### FINAL is a permutation of order 9 -/

/-- FINAL is the table T on the register's values, since both multiply by x^7 (R58, R67). -/
theorem finalRounds_eq_table (r : Crc) : finalRounds r = updsByte 0#7 (r.setWidth 8) := by
  have h := isRemainder_updsByte_zero_crc (r.setWidth 8)
  rw [BitVec.toNat_setWidth_of_le (by decide)] at h
  exact (isRemainder_finalRounds r).crc_eq h

/-- FINAL is linear, as the table is (R59, R67). -/
theorem finalRounds_xor (r₁ r₂ : Crc) : finalRounds (r₁ ^^^ r₂) = finalRounds r₁ ^^^ finalRounds r₂ := by
  simp only [finalRounds_eq_table, ← updsByte_xor, BitVec.setWidth_xor, BitVec.xor_self]

/-- FINAL loses nothing, since it is seven steps on a zero bit and the steps S and B are one there (R67). -/
theorem finalRounds_injective : Function.Injective finalRounds := by
  have hsteps : finalRounds = (fun r => stepS r false)^[7] := by
    simp only [stepS_false]
    rfl
  rw [hsteps]
  exact (stepS_injective false).iterate 7

/-- r(x)·x^7 = r(x) mod P for two values of the register only (R67). -/
theorem finalRounds_eq_self_iff (r : Crc) : finalRounds r = r ↔ r = 0x00#7 ∨ r = 0x6D#7 := by
  revert r; decide

/-- (x^63 + 1)/P(x): P divides x^63 + 1, so x^63 = 1 mod P (R67). -/
def orderQuotient : Nat := 0x17C7B72694433AB

theorem timesP_orderQuotient : timesP orderQuotient = 1 <<< 63 ^^^ 1 := by decide

/-- In u·x + c, the factor x^k + 1 may be taken out of each term. -/
theorem shiftLeft_xor_self_shift_xor (u c k : Nat) :
    (u <<< 1 ^^^ c) <<< k ^^^ (u <<< 1 ^^^ c) = (u <<< k ^^^ u) <<< 1 ^^^ (c <<< k ^^^ c) := by
  simp only [Nat.shiftLeft_xor_distrib, ← Nat.shiftLeft_add, Nat.add_comm 1 k]
  ac_rfl

/-- x^63 = 1 mod P, so P divides u(x)·x^63 + u(x) for every u (R67). -/
theorem shiftLeft_63_xor_self (u : Nat) : ∃ q, u <<< 63 ^^^ u = timesP q := by
  induction u using Nat.binaryRec with
  | zero => exact ⟨0, rfl⟩
  | bit b u ih =>
    obtain ⟨q, hq⟩ := ih
    have hb : b.toNat <<< 63 ^^^ b.toNat = timesP (if b then orderQuotient else 0) := by
      cases b
      · rfl
      · exact timesP_orderQuotient.symm
    refine ⟨q <<< 1 ^^^ if b then orderQuotient else 0, ?_⟩
    rw [timesP_xor, timesP_shiftLeft, ← hq, ← hb, bit_eq_xor, shiftLeft_xor_self_shift_xor]

/-- `k` applications of FINAL multiply by x^(7k) (R67). -/
theorem isRemainder_iterate_finalRounds (k : Nat) (r : Crc) :
    IsRemainder (r.toNat <<< (7 * k)) (finalRounds^[k] r).toNat := by
  induction k with
  | zero => exact isRemainder_self r.isLt
  | succ k ih =>
    rw [Function.iterate_succ_apply', Nat.mul_succ, Nat.shiftLeft_add]
    exact ih.shift_finalRounds

/-- Nine applications multiply by x^63, which is 1 mod P (R67). -/
theorem iterate_nine_finalRounds (r : Crc) : finalRounds^[9] r = r := by
  obtain ⟨q, hq⟩ := shiftLeft_63_xor_self r.toNat
  have hrem : IsRemainder (r.toNat <<< 63) r.toNat := ⟨r.isLt, q, by rw [← hq, Nat.xor_xor_cancel_right]⟩
  exact (isRemainder_iterate_finalRounds 9 r).crc_eq hrem

/-- Fewer than nine applications move the register's value 1 (R67). -/
theorem iterate_finalRounds_one_ne : ∀ k < 9, 1 ≤ k → finalRounds^[k] 0x01#7 ≠ 0x01#7 := by decide

/-- Settles O27: FINAL is the product with x^7, which is injective mod P and of order 9. -/
theorem finalLaws : Obligations.FinalLaws :=
  ⟨fun r => ⟨isRemainder_finalRounds r, finalRounds_eq_table r⟩,
    Finite.injective_iff_bijective.1 finalRounds_injective, finalRounds_eq_self_iff, iterate_nine_finalRounds,
    fun k hpos hlt => iterate_finalRounds_one_ne k hlt hpos⟩

/-- Settles O29: FINAL(FINAL(r)) = FINAL(r) means FINAL(r) = r, FINAL being injective; and the check of R73 rejects FINAL in
PHASE FINAL with REUSE. -/
theorem secondFinalIsRejectedAndNotIdempotent : Obligations.SecondFinalIsRejectedAndNotIdempotent := by
  constructor
  · intro r
    rw [finalRounds_injective.eq_iff, finalRounds_eq_self_iff]
  · intro s hphase
    have hcheck : check s.phase .final = some .reuse := by rw [hphase]; rfl
    exact ⟨_, exec_of_rejected hcheck, rfl, hphase, rfl⟩

/-! ### The two update styles -/

/-- UPDS feeds d·x^7 in where UPDB feeds d in (R69). -/
theorem isRemainder_upds_xor_updb (r : Crc) (d : Byte) :
    IsRemainder (d.toNat <<< 7 ^^^ d.toNat) (updsByte r d ^^^ updbByte r d).toNat := by
  have h := (isRemainder_updsByte r d).xor (isRemainder_updbByte r d)
  have hsum : (r.toNat <<< 8 ^^^ d.toNat <<< 7) ^^^ (r.toNat <<< 8 ^^^ d.toNat) = d.toNat <<< 7 ^^^ d.toNat := by
    rw [Nat.xor_comm (r.toNat <<< 8), Nat.xor_assoc, Nat.xor_xor_cancel_left]
  rwa [hsum, ← BitVec.toNat_xor] at h

/-- From CRC = 0, FINAL takes UPDB's value to UPDS's (R69). -/
theorem finalRounds_updbByte_zero_crc (d : Byte) : finalRounds (updbByte 0#7 d) = updsByte 0#7 d :=
  (isRemainder_updbByte_zero_crc d).shift_finalRounds.crc_eq (isRemainder_updsByte_zero_crc d)

/-- The four data that are 0 or the fixed point of FINAL, mod P (R64, R69). -/
theorem updbByte_zero_crc_fixed_iff (d : Byte) : updbByte 0#7 d = 0x00#7 ∨ updbByte 0#7 d = 0x6D#7 ↔
    d = 0x00#8 ∨ d = 0x6D#8 ∨ d = 0xB7#8 ∨ d = 0xDA#8 := by
  revert d; decide

/-- The two updates agree where FINAL keeps UPDB(0, d), whatever the register (R69). -/
theorem updsByte_eq_updbByte_iff (r : Crc) (d : Byte) :
    updsByte r d = updbByte r d ↔ d = 0x00#8 ∨ d = 0x6D#8 ∨ d = 0xB7#8 ∨ d = 0xDA#8 := by
  rw [updsByte_eq_xor, updbByte_eq_xor, updsByte_zero_datum, BitVec.xor_right_inj, ← finalRounds_updbByte_zero_crc,
    finalRounds_eq_self_iff, updbByte_zero_crc_fixed_iff]

/-- With a zero datum UPDB takes the fixed points of FINAL, and no other value, to fixed points of FINAL (R69). -/
theorem updbByte_zero_datum_fixed_iff (r : Crc) :
    updbByte r 0#8 = 0x00#7 ∨ updbByte r 0#8 = 0x6D#7 ↔ r = 0x00#7 ∨ r = 0x6D#7 := by
  revert r; decide

/-- FINAL after UPDB gives UPDS where FINAL keeps UPDB(r, 0), whatever the datum (R69). -/
theorem updsByte_eq_finalRounds_updbByte_iff (r : Crc) (d : Byte) :
    updsByte r d = finalRounds (updbByte r d) ↔ r = 0x00#7 ∨ r = 0x6D#7 := by
  rw [updsByte_eq_xor, updbByte_eq_xor, finalRounds_xor, finalRounds_updbByte_zero_crc, updsByte_zero_datum,
    BitVec.xor_left_inj, eq_comm, finalRounds_eq_self_iff, updbByte_zero_datum_fixed_iff]

/-- From a seed r over n bytes, the buffer protocol gives r(x)·x^(8n + 7) + M(x)·x^7 mod P (R69). -/
theorem isRemainder_finalRounds_foldl_updbByte (r : Crc) (m : List Byte) :
    IsRemainder (r.toNat <<< (8 * m.length + 7) ^^^ messagePoly m <<< 7) (finalRounds (m.foldl updbByte r)).toNat := by
  have h := (isRemainder_foldl_updbByte r m).shift_finalRounds
  rwa [Nat.shiftLeft_xor_distrib, ← Nat.shiftLeft_add] at h

/-- Settles O28: each agreement is a fixed point of FINAL, and the two protocols are folds by Horner's rule. -/
theorem twoStylesAgreeExactlyHere : Obligations.TwoStylesAgreeExactlyHere :=
  ⟨updsByte_eq_updbByte_iff, isRemainder_upds_xor_updb, updsByte_eq_finalRounds_updbByte_iff, fun seed m =>
    ⟨isRemainder_foldl_updsByte seed m, isRemainder_finalRounds_foldl_updbByte seed m⟩⟩

/-! ### The buffer protocol -/

/-- A run of UPDB ends in BUFFER if there was a byte (R74). -/
theorem phase_of_run_updb (m : List Byte) {s t : State} (hp : s.phase = .buffer ∨ s.phase = .fresh)
    (h : runWords (m.map fun d => encode (.updb d)) s = .next t) : t.phase = if m = [] then s.phase else .buffer := by
  induction m generalizing s with
  | nil =>
    obtain rfl := Host.Outcome.next.inj h
    rfl
  | cons d m ih =>
    rw [List.map_cons, runWords_cons_of_ok (decode_encode _) (check_updb_of_phase hp d)] at h
    exact (ih (s := performed (.updb d) (takeWord [] s)) (.inl rfl) h).trans (ite_self _)

/-- After a run of UPDB another UPDB, or FINAL, is performed (R65, R73). -/
theorem phase_legal_of_run_updb {m : List Byte} {s t : State} (hp : s.phase = .buffer ∨ s.phase = .fresh)
    (h : runWords (m.map fun d => encode (.updb d)) s = .next t) : t.phase = .buffer ∨ t.phase = .fresh := by
  rw [phase_of_run_updb m hp h]
  split
  · exact hp
  · exact .inl rfl

/-- INIT, a run of UPDB and FINAL: the same from the seed 0, whatever the state before (R52, R68). -/
theorem runWords_init_updb_final (m : List Byte) (s : State) :
    ∃ t, runWords (encode .init :: (m.map (fun d => encode (.updb d)) ++ [encode .final])) s = .next t ∧
      t.crc = finalRounds (m.foldl updbByte 0#7) ∧ t.phase = .final ∧ t.rejected = s.rejected := by
  have hfresh : (performed .init (takeWord [] s)).phase = .buffer ∨ (performed .init (takeWord [] s)).phase = .fresh :=
    .inr rfl
  obtain ⟨t, hrun, hcrc, hrej⟩ := runWords_updb m hfresh
  rw [runWords_cons_of_ok (decode_encode _) (check_init _), runWords_append hrun,
    runWords_cons_of_ok (decode_encode _) (check_final_of_phase (phase_legal_of_run_updb hfresh hrun))]
  exact ⟨_, rfl, congrArg finalRounds hcrc, rfl, hrej⟩

/-- The buffer protocol over a message from the seed 0 gives M(x)·x^7 mod P (R68). -/
theorem isRemainder_crcB (m : List Byte) :
    IsRemainder (messagePoly m <<< 7) (finalRounds (m.foldl updbByte 0#7)).toNat := by
  simpa using isRemainder_finalRounds_foldl_updbByte 0#7 m

/-- UPDB over "123456789" from the seed 0 (R68). -/
theorem foldl_updbByte_checkMessage : checkMessage.foldl updbByte 0#7 = 0x23#7 := by
  simp [checkMessage, updbByte, datumBits, stepB, poly]

/-- Settles O48: both protocols leave the remainder of M(x)·x^7, and a polynomial has one remainder. -/
theorem bufferProtocolComputesTheSameCrc : Obligations.BufferProtocolComputesTheSameCrc := by
  refine ⟨fun s m => ?_, foldl_updbByte_checkMessage, by decide, foldl_updsByte_checkMessage⟩
  obtain ⟨t, ht, hcrcB, hphase, hrej⟩ := runWords_init_updb_final m s
  obtain ⟨u, hu, hcrcS, -⟩ := runWords_init_upds m s
  have hB : IsRemainder (messagePoly m <<< 7) t.crc.toNat := hcrcB ▸ isRemainder_crcB m
  have hS : IsRemainder (messagePoly m <<< 7) u.crc.toNat := hcrcS ▸ isRemainder_crcS m
  exact ⟨t, u, ht, hu, hB, hB.crc_eq hS, hphase, hrej⟩

/-- A run of no words changes no register (R78). -/
theorem registers_of_run_nil {s t : State} (h : runWords [] s = .next t) : t.registers = s.registers := by
  obtain rfl := Host.Outcome.next.inj h
  rfl

/-- Settles O50: a run may be cut anywhere, and after the first part another UPDB is performed. -/
theorem bufferUpdateStreams : Obligations.BufferUpdateStreams := by
  intro s a b hphase
  obtain ⟨t, ht, -⟩ := runWords_updb a hphase.symm
  obtain ⟨u, hu, -⟩ := runWords_updb b (phase_legal_of_run_updb hphase.symm ht)
  refine ⟨t, u, ht, hu, ?_, fun ha => ?_, ?_, ?_⟩
  · rw [List.map_append, runWords_append ht, hu]
  · rw [phase_of_run_updb a hphase.symm ht, if_neg ha]
  · rintro rfl
    exact registers_of_run_nil ht
  · rintro rfl
    exact registers_of_run_nil hu

end Sys2Proof.Machine
end

section
/-! PROOFS. The step: the legality table and the phases, the log that only grows, and every run as R75's Step of the
registers. -/

namespace Sys2Proof.Machine

/-! ### The legality check and what obeys it -/

/-- Settles O34: the cells are computed, and `exec` performs or rejects as the check says. -/
theorem legalityTable : Obligations.LegalityTable := by
  refine ⟨check_init, fun p q v => check_load p q v, fun _ => ⟨rfl, rfl, rfl, rfl⟩, fun _ => ⟨rfl, rfl, rfl, rfl⟩,
    ⟨rfl, rfl, rfl, rfl⟩, fun i s => ⟨fun hc => ?_, fun c hc => ?_⟩⟩
  · exact ⟨_, exec_of_ok hc, performed_rejected i s⟩
  · exact ⟨_, exec_of_rejected hc, rfl, rfl, rfl⟩

/-- The phase a performed command leaves (R74). -/
def phaseAfter : Instr → Phase
  | .init => .fresh
  | .upds _ => .single
  | .updb _ => .buffer
  | .final => .final
  | .load _ p => p

@[simp] theorem performed_phase (i : Instr) (s : State) : (performed i s).phase = phaseAfter i := by cases i <;> rfl

/-- Settles O35: a performed command leaves `phaseAfter`, and a rejection does not write PHASE. -/
theorem phaseTransitions : Obligations.PhaseTransitions := by
  intro i s t ht
  refine ⟨fun hc => ?_, fun c hc => ?_⟩
  · obtain rfl := Host.Outcome.next.inj ((exec_of_ok hc).symm.trans ht)
    rw [performed_phase]
    cases i <;> rfl
  · obtain rfl := Host.Outcome.next.inj ((exec_of_rejected hc).symm.trans ht)
    rfl

/-- Settles O41: the word leaves the port, and the command it decodes to runs. -/
theorem stepRunsTheDecodedCommand : Obligations.StepRunsTheDecodedCommand := by
  intro s rest w i hp hd
  rw [step_of_command hp, acceptWord, hd]
  rfl

/-! ### The log of rejections only grows -/

/-- Settles O44: of the kinds of step only a rejection adds to the log, at its end, with the count of words it leaves. -/
theorem everyStepGoesOnAndKeepsTheRejections : Obligations.EveryStepGoesOnAndKeepsTheRejections := by
  intro s
  obtain ⟨-, h⟩ | ⟨rest, -, h⟩ | ⟨w, rest, -, h⟩ | ⟨w, rest, c, -, -, h⟩ | ⟨w, rest, i, -, -, -, -, h⟩ := step_cases s
  · exact ⟨_, h, .inl rfl⟩
  · exact ⟨_, h, .inl rfl⟩
  · exact ⟨_, h, .inl rfl⟩
  · exact ⟨_, h, .inr ⟨_, rfl, rfl⟩⟩
  · exact ⟨_, h, .inl (performed_rejected i _)⟩

/-- No step removes an entry of the log or changes one (R89). -/
theorem rejected_prefix_of_step {s t : State} (h : step s = .next t) : s.rejected <+: t.rejected := by
  obtain ⟨t', h', hrej⟩ := everyStepGoesOnAndKeepsTheRejections s
  obtain rfl := Host.Outcome.next.inj (h'.symm.trans h)
  obtain hsame | ⟨r, hnew, -⟩ := hrej
  · rw [hsame]
  · rw [hnew]
    exact List.prefix_append _ _

/-- Nor does a run (R78, R89). -/
theorem rejected_prefix_of_run {ws : List Word} {s t : State} (h : runWords ws s = .next t) :
    s.rejected <+: t.rejected := by
  induction ws generalizing s with
  | nil =>
    obtain rfl := Host.Outcome.next.inj h
    exact List.prefix_rfl
  | cons w ws ih =>
    obtain ⟨u, -, hstep, hrun⟩ := runWords_cons w ws s
    exact (rejected_prefix_of_step hstep).trans (ih (hrun.symm.trans h))

/-! ### The step of the registers -/

/-- The machine's rejection is R83's over the registers. -/
theorem registers_reject (w : Word) (c : Cause) (s : State) :
    (reject w c s).registers = s.registers.reject (recorded c) := by
  rcases s with ⟨_, _, e, _, _, _⟩
  cases e <;> rfl

/-- R75's Step rejects a word that is not well formed with ILLEGAL. -/
theorem registersStep_of_not_wellFormed {w : Word} (h : wellFormedWord w = false) (s : Registers) :
    s.step w = s.reject .illegal := if_pos h

/-- R75's Step on the word of a command: the columns of R73 say what `check` says, and each cell writes what the command does. -/
theorem registersStep_of_decode {w : Word} {i : Instr} (hd : decode w = .ok i) (s : State) :
    s.registers.step w = (match check s.phase i with
      | none => (performed i s).registers
      | some c => s.registers.reject (recorded c)) := by
  obtain ⟨hop, -, hph, hdata, hlow⟩ := extractLsb_fields w
  have hwf : ¬ wellFormedWord w = false := by simp [wellFormedWord_eq_false_iff, hd]
  rw [Registers.step, if_neg hwf, hop, hph, hdata, hlow]
  rcases s with ⟨r, p, e, a, n, l⟩
  obtain ⟨hop, -, -, -, rfl⟩ | ⟨hop, -, -, rfl⟩ | ⟨hop, -, -, rfl⟩ | ⟨hop, -, -, -, rfl⟩ | ⟨hop, -, rfl⟩ :=
    decode_cases hd <;> rw [hop] <;> cases p <;> rfl

/-- An accepted word leaves the registers of R75's Step. -/
theorem acceptWord_registers (w : Word) (s : State) :
    ∃ t, acceptWord w s = .next t ∧ t.registers = s.registers.step w := by
  cases hd : decode w with
  | error e =>
    have hwf : wellFormedWord w = false := (wellFormedWord_eq_false_iff w).2 ⟨e, hd⟩
    refine ⟨reject w .illegal s, by rw [acceptWord, hd], ?_⟩
    rw [registersStep_of_not_wellFormed hwf]
    exact registers_reject w .illegal s
  | ok i =>
    have hexec : acceptWord w s = exec i s := by rw [acceptWord, hd]
    rw [hexec, registersStep_of_decode hd]
    cases hc : check s.phase i with
    | none => exact ⟨_, exec_of_ok hc, rfl⟩
    | some c => exact ⟨_, exec_of_rejected hc, registers_reject _ c s⟩

/-- Settles O40, by induction on the words: the step of each is R75's Step of the registers. -/
theorem runsAreTheStepOfTheRegisters : Obligations.RunsAreTheStepOfTheRegisters := by
  intro ws
  induction ws with
  | nil => exact fun s => ⟨s.offering [], rfl, rfl⟩
  | cons w ws ih =>
    intro s
    obtain ⟨u, -, hstep, hrun⟩ := runWords_cons w ws s
    obtain ⟨u', hacc, hregs⟩ := acceptWord_registers w (takeWord [] (s.offering [.command w]))
    rw [step_of_command (s := s.offering [.command w]) rfl] at hstep
    obtain rfl := Host.Outcome.next.inj (hacc.symm.trans hstep)
    obtain ⟨t, ht, htregs⟩ := ih u'
    exact ⟨t, hrun.trans ht, by rw [htregs, hregs]; rfl⟩

end Sys2Proof.Machine
end

section
/-! PROOFS. The two protocols: the runs that are performed without a rejection are their beginnings, and one that has ended shows
the CRC of its message. -/

namespace Sys2Proof.Machine

/-! ### What may follow in each phase -/

/-- A beginning of what R72 lets follow, after an INIT, once the phase is `p`. -/
def IsProtocolRest : Phase → List Instr → Prop
  | .fresh, cs => IsProtocolPrefix cs
  | .single, cs => ∃ m : List Byte, cs = m.map .upds
  | .buffer, cs => (∃ m : List Byte, cs = m.map .updb) ∨ ∃ m : List Byte, cs = m.map .updb ++ [.final]
  | .final, cs => cs = []

/-- In FRESH either protocol may follow (R72). -/
@[simp] theorem isProtocolRest_fresh (cs : List Instr) :
    IsProtocolRest .fresh cs ↔ IsProtocolRest .single cs ∨ IsProtocolRest .buffer cs := Iff.rfl

/-- In FINAL nothing may follow (R72). -/
@[simp] theorem isProtocolRest_final (cs : List Instr) : IsProtocolRest .final cs ↔ cs = [] := Iff.rfl

/-- To stop is allowed in every phase. -/
theorem isProtocolRest_nil (p : Phase) : IsProtocolRest p [] := by
  have hempty : ∀ f : Byte → Instr, ∃ m : List Byte, [] = m.map f := fun _ => ⟨[], rfl⟩
  cases p with
  | fresh => exact .inl (hempty _)
  | single => exact hempty _
  | buffer => exact .inl (hempty _)
  | final => rfl

/-- A list of values of `f` begins with one, and goes on with such a list. -/
theorem exists_cons_eq_map_iff {α β : Type} {f : α → β} {b : β} {l : List β} :
    (∃ m : List α, b :: l = m.map f) ↔ (∃ a, b = f a) ∧ ∃ m : List α, l = m.map f := by
  constructor
  · rintro ⟨_ | ⟨a, m⟩, h⟩
    · cases h
    · obtain ⟨ha, hm⟩ := List.cons.inj h
      exact ⟨⟨a, ha⟩, m, hm⟩
  · rintro ⟨⟨a, rfl⟩, m, rfl⟩
    exact ⟨a :: m, rfl⟩

/-- In SINGLE only UPDS may follow (R72). -/
@[simp] theorem isProtocolRest_single_cons {c : Instr} {cs : List Instr} :
    IsProtocolRest .single (c :: cs) ↔ (∃ d, c = .upds d) ∧ IsProtocolRest .single cs := exists_cons_eq_map_iff

/-- In BUFFER UPDB may follow, and FINAL as the last command (R72). -/
@[simp] theorem isProtocolRest_buffer_cons {c : Instr} {cs : List Instr} :
    IsProtocolRest .buffer (c :: cs) ↔ (∃ d, c = .updb d) ∧ IsProtocolRest .buffer cs ∨ c = .final ∧ cs = [] := by
  have hfinal : (∃ m : List Byte, c :: cs = m.map .updb ++ [.final]) ↔
      (∃ d, c = .updb d) ∧ (∃ m : List Byte, cs = m.map .updb ++ [.final]) ∨ c = .final ∧ cs = [] := by
    constructor
    · rintro ⟨_ | ⟨d, m⟩, h⟩
      · exact .inr (List.cons.inj h)
      · obtain ⟨hd, hm⟩ := List.cons.inj h
        exact .inl ⟨⟨d, hd⟩, m, hm⟩
    · rintro (⟨⟨d, rfl⟩, m, rfl⟩ | ⟨rfl, rfl⟩)
      · exact ⟨d :: m, rfl⟩
      · exact ⟨[], rfl⟩
  simp only [IsProtocolRest, exists_cons_eq_map_iff, hfinal]
  tauto

/-- The check of R73 lets through what R72 lets follow, and the phase R74 gives lets the rest follow. -/
theorem isProtocolRest_cons {c : Instr} (hc : IsProtocolStep c) (p : Phase) (cs : List Instr) :
    IsProtocolRest p (c :: cs) ↔ check p c = none ∧ IsProtocolRest (phaseAfter c) cs := by
  cases c with
  | init => cases hc
  | load v q => cases hc
  | upds d => cases p <;> simp [check, phaseAfter]
  | updb d => cases p <;> simp [check, phaseAfter]
  | final => cases p <;> simp [check, phaseAfter]

/-! ### The runs without a rejection -/

/-- The first word of a run is rejected where the check does not let its command through, and the run goes on from there
(R75, R83). -/
theorem runWords_cons_of_rejected {w : Word} {i : Instr} {s : State} {c : Cause} (hd : decode w = .ok i)
    (hc : check s.phase i = some c) (ws : List Word) : runWords (w :: ws) s = runWords ws (s.afterRejection [] w c) := by
  obtain ⟨t, -, hstep, hrun⟩ := runWords_cons w ws s
  rw [step_of_rejected (s := s.offering [.command w]) rfl hd hc] at hstep
  obtain rfl := Host.Outcome.next.inj hstep
  exact hrun

/-- A run that begins with a rejection ends with a longer log (R89). -/
theorem rejected_ne_of_run_afterRejection {ws : List Word} {s t : State} {w : Word} {c : Cause}
    (h : runWords ws (s.afterRejection [] w c) = .next t) : t.rejected ≠ s.rejected := by
  intro heq
  have hle := (rejected_prefix_of_run h).length_le
  simp [State.afterRejection, heq] at hle

/-- A run of UPDS, UPDB and FINAL rejects nothing exactly when it is what R72 lets follow in the phase it starts from
(R73, R74). -/
theorem runWords_unrejected_iff {cs : List Instr} (hcs : ∀ c ∈ cs, IsProtocolStep c) {s t : State}
    (h : runWords (cs.map encode) s = .next t) : t.rejected = s.rejected ↔ IsProtocolRest s.phase cs := by
  induction cs generalizing s with
  | nil =>
    obtain rfl := Host.Outcome.next.inj h
    exact iff_of_true rfl (isProtocolRest_nil _)
  | cons i cs ih =>
    obtain ⟨hi, hcs⟩ := List.forall_mem_cons.1 hcs
    rw [isProtocolRest_cons hi]
    cases hc : check s.phase i with
    | none =>
      rw [List.map_cons, runWords_cons_of_ok (decode_encode i) hc] at h
      simpa using ih hcs h
    | some c =>
      rw [List.map_cons, runWords_cons_of_rejected (decode_encode i) hc] at h
      simp [rejected_ne_of_run_afterRejection h]

/-- Settles O39: INIT leaves FRESH and rejects nothing, and in FRESH what may follow is a beginning of a protocol. -/
theorem acceptedExactlyTheProtocolPrefixes : Obligations.AcceptedExactlyTheProtocolPrefixes := by
  intro s cs hcs
  obtain ⟨t, ht, -⟩ := runsAreTheStepOfTheRegisters (cs.map encode) (performed .init (takeWord [] s))
  rw [runWords_cons_of_ok (decode_encode _) (check_init _)]
  exact ⟨t, ht, runWords_unrejected_iff hcs ht⟩

/-! ### The CRC of the message -/

@[simp] theorem messageOf_map_upds (m : List Byte) : messageOf (m.map .upds) = m := by
  simp [messageOf, List.filterMap_map, datumOf, Function.comp_def]

@[simp] theorem messageOf_map_updb (m : List Byte) : messageOf (m.map .updb) = m := by
  simp [messageOf, List.filterMap_map, datumOf, Function.comp_def]

@[simp] theorem messageOf_map_updb_final (m : List Byte) : messageOf (m.map .updb ++ [.final]) = m := by
  rw [messageOf, List.filterMap_append, ← messageOf, messageOf_map_updb]
  simp [datumOf]

/-- A run of UPDB and FINAL folds the bytes into CRC and then performs the seven rounds (R63, R66). -/
theorem runWords_updb_final (m : List Byte) {s : State} (hp : s.phase = .buffer ∨ s.phase = .fresh) :
    ∃ t, runWords (m.map (fun d => encode (.updb d)) ++ [encode .final]) s = .next t ∧
      t.crc = finalRounds (m.foldl updbByte s.crc) := by
  obtain ⟨t, hrun, hcrc, -⟩ := runWords_updb m hp
  rw [runWords_append hrun, runWords_cons_of_ok (decode_encode _) (check_final_of_phase (phase_legal_of_run_updb hp hrun))]
  exact ⟨_, rfl, congrArg finalRounds hcrc⟩

/-- From the seed 0 in FRESH, an unrejected run that has ended leaves the CRC of its message: the buffer protocol has ended
when FINAL has been performed or nothing has (R60, R68, R76). -/
theorem isRemainder_of_unrejected {cs : List Instr} (hcs : ∀ c ∈ cs, IsProtocolStep c) {s t : State} (hphase : s.phase = .fresh)
    (hseed : s.crc = 0x00#7) (hrun : runWords (cs.map encode) s = .next t) (hrej : t.rejected = s.rejected)
    (hended : t.phase ≠ .buffer) : IsRemainder (messagePoly (messageOf cs) <<< 7) t.crc.toNat := by
  have hprefix : IsProtocolPrefix cs := by
    have h := (runWords_unrejected_iff hcs hrun).1 hrej
    rwa [hphase] at h
  obtain ⟨m, rfl⟩ | ⟨m, rfl⟩ | ⟨m, rfl⟩ := hprefix
  · obtain ⟨t', hrun', hcrc, -⟩ := runWords_upds m (.inr hphase)
    rw [List.map_map] at hrun
    obtain rfl := Host.Outcome.next.inj (hrun'.symm.trans hrun)
    rw [messageOf_map_upds, hcrc, hseed]
    exact isRemainder_crcS m
  · rw [List.map_map] at hrun
    have hm : m = [] := by
      by_contra hm
      exact hended ((phase_of_run_updb m (.inr hphase) hrun).trans (if_neg hm))
    subst hm
    obtain rfl := Host.Outcome.next.inj hrun
    rw [offering_crc, hseed]
    exact isRemainder_self (by decide)
  · obtain ⟨t', hrun', hcrc⟩ := runWords_updb_final m (.inr hphase)
    rw [List.map_append, List.map_map] at hrun
    obtain rfl := Host.Outcome.next.inj (hrun'.symm.trans hrun)
    rw [messageOf_map_updb_final, hcrc, hseed]
    exact isRemainder_crcB m

/-- Settles O49: INIT and reset both leave the seed 0 in FRESH and keep the log. -/
theorem unrejectedOutputIsTheCrcOfTheMessage : Obligations.UnrejectedOutputIsTheCrcOfTheMessage := by
  intro s t cs hcs hrun hrej hended
  rw [crcOut_toNat]
  obtain hrun | hrun := hrun
  · rw [runWords_cons_of_ok (decode_encode _) (check_init _)] at hrun
    exact isRemainder_of_unrejected hcs rfl rfl hrun hrej hended
  · exact isRemainder_of_unrejected hcs rfl rfl hrun hrej hended

end Sys2Proof.Machine
end

section
/-! PROOFS. The kinds of edges at the pins, and the step each one is. -/

namespace Sys2Proof.Machine

section
variable {c : Clocked} {p : Pins} (hheld : c.held p = true)
include hheld

/-- An edge with rst = 1 and nothing in progress performs a reset (R93). -/
theorem tick_of_reset_idle (hrst : p.rst = true) (hf : c.inFlight = none) :
    c.tick p = c.performs .reset fun s => ⟨s, false, none, p.offer⟩ := by
  simp [Clocked.tick, hheld, hrst, hf]

/-- An edge with rst = 1 abandons the command in progress (R93). -/
theorem tick_of_reset_inFlight {f : InFlight} (hrst : p.rst = true) (hf : c.inFlight = some f) :
    c.tick p = c.performs (.resetDuring f.word) fun s => ⟨s, false, none, p.offer⟩ := by
  simp [Clocked.tick, hheld, hrst, hf]

/-- The last cycle of a command performs it (R95, R101). -/
theorem tick_of_last_cycle {f : InFlight} (hrst : p.rst = false) (hf : c.inFlight = some f) (hr : f.remaining ≤ 1) :
    c.tick p = c.performs (.command f.word) fun s => ⟨s, true, none, p.offer⟩ := by
  simp [Clocked.tick, hheld, hrst, hf, hr]

/-- Every earlier cycle counts down (R101). -/
theorem tick_of_earlier_cycle {f : InFlight} (hrst : p.rst = false) (hf : c.inFlight = some f) (hr : 1 < f.remaining) :
    c.tick p = .next { c with inFlight := some ⟨f.word, f.remaining - 1⟩, offered := p.offer } := by
  simp [Clocked.tick, hheld, hrst, hf, Nat.not_le.2 hr]

/-- With nothing in progress an edge with rst = 0 raises cmd_ready, takes a command up or waits, and leaves the state
(R93, R95). -/
theorem tick_of_idle (hrst : p.rst = false) (hf : c.inFlight = none) :
    ∃ c', c.tick p = .next c' ∧ c'.core = c.core := by
  cases hr : c.ready <;> cases hv : p.valid <;> simp [Clocked.tick, hheld, hrst, hf, hr, hv]

end

/-- What the block performs at an edge is one step of the machine (R75). -/
theorem core_of_performs {c : Clocked} {p : Pins} {a : HostAction} {after : State → Clocked} (hcore : ∀ s, (after s).core = s)
    (htick : c.tick p = c.performs a after) :
    ∃ c', c.tick p = .next c' ∧ step (c.core.offering [a]) = .next c'.core := by
  obtain ⟨t, hstep, -, hperf⟩ := performs_eq c a after
  exact ⟨after t, htick.trans hperf, by rw [hcore, hstep]⟩

/-- Settles O57: each kind of edge by its lemma, where what the block performs is one step by `core_of_performs`. -/
theorem pinsRefineTheStep : Obligations.PinsRefineTheStep := by
  intro c p ⟨_, hpos, _⟩ hheld
  cases hrst : p.rst with
  | true =>
    cases hf : c.inFlight with
    | none =>
      obtain ⟨c', htick, hstep⟩ := core_of_performs (fun _ => rfl) (tick_of_reset_idle hheld hrst hf)
      exact ⟨c', htick, by simp [hstep]⟩
    | some f =>
      obtain ⟨c', htick, hstep⟩ := core_of_performs (fun _ => rfl) (tick_of_reset_inFlight hheld hrst hf)
      exact ⟨c', htick, by simp [hstep]⟩
  | false =>
    cases hf : c.inFlight with
    | none =>
      obtain ⟨c', htick, hcore⟩ := tick_of_idle hheld hrst hf
      exact ⟨c', htick, by simp [hcore]⟩
    | some f =>
      obtain hlast | hearlier : f.remaining = 1 ∨ 1 < f.remaining := (hpos f hf).eq_or_lt'
      · obtain ⟨c', htick, hstep⟩ := core_of_performs (fun _ => rfl) (tick_of_last_cycle hheld hrst hf hlast.le)
        exact ⟨c', htick, by simp [hstep, hlast]⟩
      · exact ⟨_, tick_of_earlier_cycle hheld hrst hf hearlier, by simp [hearlier.ne']⟩

end Sys2Proof.Machine
end

section
/-! PROOFS. Rejection as the block's exception: what it leaves, how long ERRCAUSE keeps its cause, and the steps that perform no
command. -/

namespace Sys2Proof.Machine

/-! ### A word at the port is rejected, or performed -/

/-- The step performs the word at the port where its verdict names no cause (R75). -/
theorem step_of_verdict_none {s : State} {rest : List HostAction} {w : Word} (hp : s.port = .command w :: rest)
    (hv : verdict w s = none) : ∃ i, step s = .next (performed i (takeWord rest s)) := by
  have hv' : verdict w (takeWord rest s) = none := (verdict_congr rfl).trans hv
  obtain ⟨c, hc, -⟩ | ⟨i, -, -, -, h⟩ := acceptWord_cases w (takeWord rest s)
  · simp [hv'] at hc
  · exact ⟨i, (step_of_command hp).trans h⟩

/-- Settles O36: a word with a verdict is rejected for it, and any other word is performed, which writes no entry. -/
theorem rejectionRecordsItsCauseAndNothingElse : Obligations.RejectionRecordsItsCauseAndNothingElse := by
  intro s rest w hp
  refine ⟨fun c hv => ⟨_, step_of_verdict hp hv, rejectedWith_afterRejection s rest w c⟩, fun hv => ?_⟩
  obtain ⟨i, h⟩ := step_of_verdict_none hp hv
  exact ⟨_, h, performed_port i _, performed_rejected i _⟩

/-! ### ERRCAUSE from one INIT or reset to the next -/

/-- The host's next action is one of those that clear ERRCAUSE: INIT, or a reset with or without a command in progress (R84). -/
def State.ClearsNext (s : State) : Prop :=
  s.port.head? = some (.command 0x1000#16) ∨ s.port.head? = some .reset ∨ ∃ w, s.port.head? = some (.resetDuring w)

/-- INIT is performed in every PHASE, so it clears as reset does (R73, R84). -/
theorem errcause_of_clearsNext {s t : State} (hs : s.ClearsNext) (h : step s = .next t) : t.errcause = .none := by
  obtain hp | hp | ⟨w, hp⟩ := hs <;> obtain ⟨rest, hp⟩ := List.head?_eq_some_iff.1 hp
  · obtain rfl := Host.Outcome.next.inj ((step_of_init hp).symm.trans h)
    rfl
  · obtain rfl := Host.Outcome.next.inj ((step_of_reset hp).symm.trans h)
    rfl
  · obtain rfl := Host.Outcome.next.inj ((step_of_resetDuring hp).symm.trans h)
    rfl

/-- Everything a step can do to ERRCAUSE: clear it, keep it, or record the rejection that the log gains (R84). -/
theorem errcause_cases_of_step {s t : State} (hstep : step s = .next t) :
    s.ClearsNext ∨ t.errcause = s.errcause ∨
      ∃ r, t.rejected = s.rejected ++ [r] ∧ t.errcause = recordFirst s.errcause r := by
  obtain ⟨-, h⟩ | ⟨rest, hp, -⟩ | ⟨w, rest, hp, -⟩ | ⟨w, rest, c, -, -, h⟩ | ⟨w, rest, i, hp, hd, -, -, h⟩ := step_cases s
  · obtain rfl := Host.Outcome.next.inj (h.symm.trans hstep)
    exact .inr (.inl rfl)
  · exact .inl (.inr (.inl (by rw [hp, List.head?_cons])))
  · exact .inl (.inr (.inr ⟨w, by rw [hp, List.head?_cons]⟩))
  · obtain rfl := Host.Outcome.next.inj (h.symm.trans hstep)
    exact .inr (.inr ⟨_, rfl, afterRejection_errcause s rest w c⟩)
  · obtain rfl := Host.Outcome.next.inj (h.symm.trans hstep)
    by_cases hi : i = .init
    · have hw : w = 0x1000#16 := word_of_init (hi ▸ hd)
      exact .inl (.inl (by rw [hp, hw, List.head?_cons]))
    · exact .inr (.inl ((performed_errcause i _).trans (if_neg hi)))

/-- Settles O37: `recordFirst` takes the cause from NONE only, and what clears does so in every state. -/
theorem errcauseIsStickyUntilInitOrReset : Obligations.ErrcauseIsStickyUntilInitOrReset := by
  intro s t hstep
  refine ⟨fun hs ht => ?_, fun hs hinit hreset hduring => ?_, fun hclears => errcause_of_clearsNext hclears hstep⟩
  · obtain hclears | hsame | ⟨r, hlog, herr⟩ := errcause_cases_of_step hstep
    · exact absurd (errcause_of_clearsNext hclears hstep) ht
    · exact absurd (hsame.trans hs) ht
    · exact ⟨r, hlog, by rw [herr, hs, recordFirst_of_none]⟩
  · obtain (hp | hp | ⟨w, hp⟩) | hsame | ⟨r, -, herr⟩ := errcause_cases_of_step hstep
    · exact absurd hp hinit
    · exact absurd hp hreset
    · exact absurd hp (hduring w)
    · exact hsame
    · rw [herr, recordFirst_of_ne_none hs]

/-! ### The steps that perform no command -/

/-- Settles O42: each kind of step by its lemma, with `resetBlock` of the state in which the action has left the port. -/
theorem stepsThatPerformNoCommand : Obligations.StepsThatPerformNoCommand :=
  ⟨fun _ => step_of_idle, fun _ _ => step_of_reset, fun _ _ _ => step_of_resetDuring⟩

end Sys2Proof.Machine
end

section
/-! PROOFS. The block at its pins: what one edge can do, said once, and the way of a command from its acceptance to its last
cycle; the state after reset; and the bit-serial divider against the steps of UPDS, UPDB and FINAL. -/

namespace Sys2Proof.Machine

/-! ### The state after reset -/

/-- Every state with the registers of reset shows the outputs of reset (R18, R21, R22, R92). -/
theorem outputs_of_reset_registers {s : State} (h : s.registers = ⟨0x00#7, .fresh, .none⟩) :
    outputs s = ⟨0x00#8, 0x00#8, false⟩ :=
  calc outputs s
    _ = outputs State.reset := outputs_eq_of_registers h
    _ = ⟨0x00#8, 0x00#8, false⟩ := by decide

/-- Settles O46: the observation is empty and ERRCAUSE is NONE, so there is no entry and no cause to justify. -/
theorem logSoundAtReset : Obligations.LogSoundAtReset :=
  ⟨⟨List.Pairwise.nil, fun _ hr => absurd hr List.not_mem_nil, fun herr => absurd rfl herr⟩, rfl⟩

/-! ### One edge -/

/-- The host's duty: whatever it has offered it still offers (R96). -/
theorem held_iff {c : Clocked} {p : Pins} :
    c.held p = true ↔ ∀ w, c.offered = some w → p.valid = true ∧ p.cmd = w := by
  cases ho : c.offered <;> simp [Clocked.held, ho]

theorem tick_of_not_held {c : Clocked} {p : Pins} (h : c.held p = false) : c.tick p = .refused .commandNotHeld := by
  simp [Clocked.tick, h]

theorem held_of_tick {c c' : Clocked} {p : Pins} (h : c.tick p = .next c') : c.held p = true := by
  by_contra hheld
  simp [tick_of_not_held (Bool.eq_false_iff.2 hheld)] at h

/-- What an edge within the host's duty makes of the block, by its kinds (R93, R95, R101). -/
inductive Edge (c : Clocked) (p : Pins) : Clocked → Prop where
  /-- rst = 1: the registers take their reset values and a command in progress is dropped. -/
  | reset (t : State) (hrst : p.rst = true) (hregs : t.registers = ⟨0x00#7, .fresh, .none⟩) (hport : t.port = []) :
      Edge c p ⟨t, false, none, p.offer⟩
  /-- The last cycle of the command in progress. -/
  | last (f : InFlight) (t : State) (hrst : p.rst = false) (hf : c.inFlight = some f) (hr : f.remaining ≤ 1)
      (hstep : step (c.core.offering [.command f.word]) = .next t) (hport : t.port = []) :
      Edge c p ⟨t, true, none, p.offer⟩
  /-- An earlier cycle of the command in progress. -/
  | earlier (f : InFlight) (hrst : p.rst = false) (hf : c.inFlight = some f) (hr : 1 < f.remaining) :
      Edge c p { c with inFlight := some ⟨f.word, f.remaining - 1⟩, offered := p.offer }
  /-- cmd_ready rises after reset. -/
  | rise (hrst : p.rst = false) (hf : c.inFlight = none) (hready : c.ready = false) :
      Edge c p { c with ready := true, offered := p.offer }
  /-- The handshake. -/
  | accept (hrst : p.rst = false) (hf : c.inFlight = none) (hready : c.ready = true) (hvalid : p.valid = true) :
      Edge c p { c with ready := false, inFlight := some ⟨p.cmd, latency p.cmd c.core⟩, offered := none }
  /-- Nothing is offered. -/
  | wait (hrst : p.rst = false) (hf : c.inFlight = none) (hready : c.ready = true) (hvalid : p.valid = false) :
      Edge c p { c with offered := none }

section
variable {c : Clocked} {p : Pins} (hheld : c.held p = true)
include hheld

/-- At an edge with rst = 1 the block is reset, whether or not a command is in progress (R92, R93). -/
theorem tick_of_reset (hrst : p.rst = true) :
    ∃ t : State, t.registers = ⟨0x00#7, .fresh, .none⟩ ∧ t.port = [] ∧ c.tick p = .next ⟨t, false, none, p.offer⟩ := by
  cases hf : c.inFlight with
  | none => exact ⟨_, registers_resetBlock _, rfl, tick_of_reset_idle hheld hrst hf⟩
  | some f => exact ⟨_, registers_resetBlock _, rfl, tick_of_reset_inFlight hheld hrst hf⟩

/-- The first edge with rst = 0 raises cmd_ready and takes no offer up (R93, log entry 11). -/
theorem tick_of_rise (hrst : p.rst = false) (hf : c.inFlight = none) (hready : c.ready = false) :
    c.tick p = .next { c with ready := true, offered := p.offer } := by
  simp [Clocked.tick, hheld, hrst, hf, hready]

/-- The handshake takes the command up (R95). -/
theorem tick_of_accept (hrst : p.rst = false) (hf : c.inFlight = none) (hready : c.ready = true) (hvalid : p.valid = true) :
    c.tick p =
      .next { c with ready := false, inFlight := some ⟨p.cmd, latency p.cmd c.core⟩, offered := none } := by
  simp [Clocked.tick, hheld, hrst, hf, hready, hvalid]

/-- A ready block to which nothing is offered stays as it is (R91). -/
theorem tick_of_wait (hrst : p.rst = false) (hf : c.inFlight = none) (hready : c.ready = true) (hvalid : p.valid = false) :
    c.tick p = .next { c with offered := none } := by
  simp [Clocked.tick, hheld, hrst, hf, hready, hvalid]

/-- A host within its duty has a move, and it is one of the kinds of edges. -/
theorem exists_edge : ∃ c', c.tick p = .next c' ∧ Edge c p c' := by
  cases hrst : p.rst with
  | true =>
    obtain ⟨t, hregs, hport, htick⟩ := tick_of_reset hheld hrst
    exact ⟨_, htick, .reset t hrst hregs hport⟩
  | false =>
    cases hf : c.inFlight with
    | some f =>
      obtain hr | hr := Nat.lt_or_ge 1 f.remaining
      · exact ⟨_, tick_of_earlier_cycle hheld hrst hf hr, .earlier f hrst hf hr⟩
      · obtain ⟨t, hstep, hport, hperf⟩ := performs_eq c (.command f.word) fun s => ⟨s, true, none, p.offer⟩
        exact ⟨_, (tick_of_last_cycle hheld hrst hf hr).trans hperf, .last f t hrst hf hr hstep hport⟩
    | none =>
      cases hready : c.ready with
      | false => exact ⟨_, tick_of_rise hheld hrst hf hready, .rise hrst hf hready⟩
      | true =>
        cases hvalid : p.valid with
        | true => exact ⟨_, tick_of_accept hheld hrst hf hready hvalid, .accept hrst hf hready hvalid⟩
        | false => exact ⟨_, tick_of_wait hheld hrst hf hready hvalid, .wait hrst hf hready hvalid⟩

end

/-- Everything an edge can leave. -/
theorem edge_of_tick {c c' : Clocked} {p : Pins} (h : c.tick p = .next c') : Edge c p c' := by
  obtain ⟨c'', htick, hedge⟩ := exists_edge (held_of_tick h)
  exact Host.Outcome.next.inj (htick.symm.trans h) ▸ hedge

/-- Every edge keeps the clock-level state sound; at acceptance because a latency is at least one cycle (R95, R101). -/
theorem Clocked.Sound.edge {c c' : Clocked} {p : Pins} (hs : c.Sound) (h : Edge c p c') : c'.Sound := by
  obtain ⟨hidle, hpos, hport⟩ := hs
  cases h with
  | reset t _ _ ht => exact ⟨fun _ => rfl, by simp, ht⟩
  | last f t _ _ _ _ ht => exact ⟨fun _ => rfl, by simp, ht⟩
  | earlier f _ hf hr =>
    refine ⟨fun hready => ?_, ?_, hport⟩
    · simp [hidle hready] at hf
    · rintro _ ⟨⟩
      exact Nat.le_sub_one_of_lt hr
  | rise _ hf _ => exact ⟨fun _ => hf, hpos, hport⟩
  | accept => exact ⟨by simp, by rintro _ ⟨⟩; exact latency_pos _ _, hport⟩
  | wait => exact ⟨hidle, hpos, hport⟩

/-- Settles O56: after reset nothing is in progress, and each kind of edge keeps the state sound. -/
theorem everyEdgeKeepsTheClockedStateSound : Obligations.EveryEdgeKeepsTheClockedStateSound :=
  ⟨⟨fun _ => rfl, by simp [Clocked.reset], rfl⟩, fun _ _ _ hs htick => hs.edge (edge_of_tick htick)⟩

/-- Settles O53: the host that breaks its duty is refused, and any other has one of the kinds of edges. -/
theorem hostMustHoldItsOffer : Obligations.HostMustHoldItsOffer := by
  refine fun c p => ⟨fun w ho hbroken => tick_of_not_held ?_, fun hduty => ?_⟩
  · rw [Bool.eq_false_iff, Ne, held_iff]
    intro hduty
    obtain ⟨hvalid, hcmd⟩ := hduty w ho
    simp [hvalid, hcmd] at hbroken
  · obtain ⟨c', htick, -⟩ := exists_edge (held_iff.2 hduty)
    exact ⟨c', htick⟩

/-- Settles O52: the handshake is `tick_of_accept`, and no other kind of edge brings a new word into progress. -/
theorem acceptedExactlyAtTheHandshake : Obligations.AcceptedExactlyAtTheHandshake := by
  intro c p ⟨hidle, _, _⟩ hheld
  refine ⟨fun ⟨hrst, hvalid, hready⟩ => ⟨_, tick_of_accept hheld hrst (hidle hready) hready hvalid, rfl, rfl, rfl⟩,
    fun hno => ?_⟩
  obtain ⟨c', htick, hedge⟩ := exists_edge hheld
  refine ⟨c', htick, fun f' hf' => ?_⟩
  cases hedge with
  | reset => simp at hf'
  | last => simp at hf'
  | earlier f _ hf _ => exact ⟨f, hf, by rw [← Option.some.inj hf']⟩
  | rise => exact ⟨f', hf', rfl⟩
  | accept hrst _ hready hvalid => exact absurd ⟨hrst, hvalid, hready⟩ hno
  | wait => exact ⟨f', hf', rfl⟩

/-- Settles O1: at the port reset is `resetBlock`, and at the pins `tick_of_reset`. -/
theorem resetGivesTheStateInitGives : Obligations.ResetGivesTheStateInitGives := by
  refine ⟨⟨rfl, outputs_of_reset_registers rfl⟩, fun s rest hp => ?_, fun c p hheld hrst => ?_⟩
  · exact ⟨_, step_of_reset hp, registers_resetBlock _, outputs_of_reset_registers (registers_resetBlock _), rfl⟩
  · obtain ⟨t, hregs, -, htick⟩ := tick_of_reset hheld hrst
    exact ⟨_, htick, hregs, rfl⟩

/-- Settles O51: the three clauses are the edges of reset, of the rise of cmd_ready and of waiting. -/
theorem resetAtThePins : Obligations.ResetAtThePins := by
  refine ⟨fun c p hheld hrst => ?_, fun c p hheld hrst hready hf => ?_, fun c p hheld hrst hready hf hvalid => ?_⟩
  · obtain ⟨t, hregs, -, htick⟩ := tick_of_reset hheld hrst
    exact ⟨_, htick, hregs, rfl, rfl⟩
  · exact ⟨_, tick_of_rise hheld hrst hf hready, rfl, rfl, hf⟩
  · exact ⟨_, tick_of_wait hheld hrst hf hready hvalid, rfl, hready, hf⟩

/-! ### From acceptance to completion -/

/-- A run takes its first edge, and then the others. -/
theorem run_cons_eq_next {p : Pins} {ps : List Pins} {c c₂ : Clocked} :
    Clocked.run (p :: ps) c = .next c₂ ↔ ∃ c₁, c.tick p = .next c₁ ∧ Clocked.run ps c₁ = .next c₂ := by
  cases h : c.tick p <;> simp [Clocked.run, h]

/-- A command in progress is performed at its last cycle, and counts down at an earlier one (R95, R101). -/
theorem tick_inFlight {c c' : Clocked} {p : Pins} {w : Word} {n : Nat} (hf : c.inFlight = some ⟨w, n⟩) (hrst : p.rst = false)
    (h : c.tick p = .next c') :
    (n ≤ 1 ∧ step (c.core.offering [.command w]) = .next c'.core ∧ c'.ready = true ∧ c'.inFlight = none) ∨
    (1 < n ∧ c'.core = c.core ∧ c'.ready = c.ready ∧ c'.inFlight = some ⟨w, n - 1⟩) := by
  cases edge_of_tick h with
  | reset _ hrst' => simp [hrst] at hrst'
  | last f t _ hf' hr hstep _ =>
    obtain rfl := Option.some.inj (hf.symm.trans hf')
    exact .inl ⟨hr, hstep, rfl, rfl⟩
  | earlier f _ hf' hr =>
    obtain rfl := Option.some.inj (hf.symm.trans hf')
    exact .inr ⟨hr, rfl, rfl, rfl⟩
  | rise _ hf' => simp [hf] at hf'
  | accept _ hf' => simp [hf] at hf'
  | wait _ hf' => simp [hf] at hf'

/-- Before its last cycle a command in progress has written nothing (R95, R99). -/
theorem run_before_last {ps : List Pins} (hrst : ∀ q ∈ ps, q.rst = false) {c c₂ : Clocked} {w : Word} {n : Nat}
    (hf : c.inFlight = some ⟨w, n⟩) (hlen : ps.length < n) (hrun : Clocked.run ps c = .next c₂) :
    c₂.core = c.core ∧ c₂.ready = c.ready := by
  induction ps generalizing c n with
  | nil =>
    obtain rfl := Host.Outcome.next.inj hrun
    exact ⟨rfl, rfl⟩
  | cons q ps ih =>
    obtain ⟨hq, hps⟩ := List.forall_mem_cons.1 hrst
    obtain ⟨c₁, htick, hrun⟩ := run_cons_eq_next.1 hrun
    rw [List.length_cons] at hlen
    obtain ⟨hn, -⟩ | ⟨-, hcore, hready, hf'⟩ := tick_inFlight hf hq htick
    · omega
    · rw [← hcore, ← hready]
      exact ih hps hf' (by omega) hrun

/-- At its last cycle a command in progress is performed, as one step (R95, R99, R101). -/
theorem run_to_last {ps : List Pins} (hrst : ∀ q ∈ ps, q.rst = false) {c c₂ : Clocked} {w : Word} {n : Nat}
    (hf : c.inFlight = some ⟨w, n⟩) (hpos : 1 ≤ n) (hlen : ps.length = n) (hrun : Clocked.run ps c = .next c₂) :
    step (c.core.offering [.command w]) = .next c₂.core ∧ c₂.ready = true ∧ c₂.inFlight = none := by
  induction ps generalizing c n with
  | nil =>
    rw [List.length_nil] at hlen
    omega
  | cons q ps ih =>
    obtain ⟨hq, hps⟩ := List.forall_mem_cons.1 hrst
    obtain ⟨c₁, htick, hrun⟩ := run_cons_eq_next.1 hrun
    rw [List.length_cons] at hlen
    obtain ⟨hn, hdone⟩ | ⟨hn, hcore, -, hf'⟩ := tick_inFlight hf hq htick
    · obtain rfl : ps = [] := List.eq_nil_of_length_eq_zero (by omega)
      obtain rfl := Host.Outcome.next.inj hrun
      exact hdone
    · rw [← hcore]
      exact ih hps hf' (by omega) (by omega) hrun

/-- Settles O54: the handshake puts the command in progress for its latency, and the run follows it there. -/
theorem acceptedCommandCompletesAfterItsLatency : Obligations.AcceptedCommandCompletesAfterItsLatency := by
  intro c c₁ p ps ⟨hidle, _, _⟩ hready hrst hvalid htick hps
  have haccept := tick_of_accept (held_of_tick htick) hrst (hidle hready) hready hvalid
  obtain rfl := Host.Outcome.next.inj (haccept.symm.trans htick)
  refine ⟨fun hlen c₂ hrun => ?_, fun hlen c₂ hrun => ?_⟩
  · obtain ⟨hcore₂, hready₂⟩ := run_before_last hps rfl hlen hrun
    exact ⟨hready₂, hcore₂, by simp [visible_eq, hready₂]⟩
  · obtain ⟨hstep, hready₂, hf₂⟩ := run_to_last hps rfl (latency_pos _ _) hlen hrun
    exact ⟨hready₂, hf₂, hstep, by simp [visible_eq, hready₂]⟩

/-- Settles O55: as many quiet edges as the latency run through (`run_quiet`), and the last of them performs the command. -/
theorem everyAcceptedCommandCompletes : Obligations.EveryAcceptedCommandCompletes := by
  intro c w ⟨hidle, _, _⟩ hready hoffer
  have hheld : c.held ⟨false, true, w⟩ = true := by
    refine held_iff.2 fun v hv => ⟨rfl, ?_⟩
    obtain ho | ho := hoffer
    · simp [ho] at hv
    · exact Option.some.inj (ho.symm.trans hv)
  have haccept := tick_of_accept hheld rfl (hidle hready) hready rfl
  obtain ⟨n, hn⟩ := Nat.exists_eq_add_of_le' (latency_pos w c.core)
  obtain ⟨c₂, hrun⟩ := run_quiet w n ⟨c.core, false, some ⟨w, latency w c.core⟩, none⟩ _ rfl hn rfl
  have hquiet : ∀ q ∈ List.replicate (n + 1) (⟨false, false, w⟩ : Pins), q.rst = false :=
    fun q hq => by rw [List.eq_of_mem_replicate hq]
  obtain ⟨hstep, hready₂, -⟩ := run_to_last hquiet rfl (latency_pos w c.core) (by rw [List.length_replicate, hn]) hrun
  exact ⟨n + 1, c₂, run_cons_eq_next.2 ⟨_, haccept, hrun⟩, Nat.succ_pos n, hready₂, hstep⟩

/-! ### The bit-serial divider -/

/-- The one-bit step the divider performs (R100). -/
def BitStep.apply : BitStep → Crc → Bool → Crc
  | .s => stepS
  | .b => stepB

/-- A clock of a busy divider consumes the bit its counter names, and is the last at bit 0 (R100). -/
theorem clock_of_busy {v : Divider} (h : v.busy = true) : v.clock =
    ⟨v.kind.apply v.reg (v.datum.getLsbD v.count.toNat), v.count - 1, v.datum, v.kind, decide (v.count ≠ 0)⟩ := by
  rw [Divider.clock, if_pos h]
  cases v.kind <;> rfl

/-- The divider at work: it has the bits of the datum from `n` down to 0 before it. -/
def Divider.atBit (kind : BitStep) (d : Byte) (n : Nat) (r : Crc) : Divider := ⟨r, BitVec.ofNat 3 n, d, kind, true⟩

/-- The clock that consumes bit 0 is the last. -/
theorem clock_atBit_zero (kind : BitStep) (d : Byte) (r : Crc) :
    (Divider.atBit kind d 0 r).clock = ⟨kind.apply r (d.getLsbD 0), 7#3, d, kind, false⟩ := clock_of_busy rfl

/-- Every earlier clock consumes its bit and goes on with the bit below it. -/
theorem clock_atBit_succ (kind : BitStep) (d : Byte) {n : Nat} (hn : n < 7) (r : Crc) :
    (Divider.atBit kind d (n + 1) r).clock = Divider.atBit kind d n (kind.apply r (d.getLsbD (n + 1))) := by
  have hcount : (BitVec.ofNat 3 (n + 1)).toNat = n + 1 := Nat.mod_eq_of_lt (by omega)
  have hbelow : BitVec.ofNat 3 (n + 1) - 1 = BitVec.ofNat 3 n := by rw [BitVec.ofNat_add]; exact BitVec.add_sub_cancel _ _
  have hne : BitVec.ofNat 3 (n + 1) ≠ 0 := fun h => by simp [h] at hcount
  rw [clock_of_busy rfl]
  simp only [Divider.atBit, hcount, hbelow, hne, ne_eq, not_false_eq_true, decide_true]

/-- While bits are left, the divider is busy (R100). -/
theorem clocks_busy (kind : BitStep) (d : Byte) {n : Nat} (hn : n < 8) (r : Crc) {k : Nat} (hk : k ≤ n) :
    (Divider.clocks k (Divider.atBit kind d n r)).busy = true := by
  induction k generalizing n r with
  | zero => rfl
  | succ k ih =>
    obtain ⟨n, rfl⟩ : ∃ m, n = m + 1 := Nat.exists_eq_succ_of_ne_zero (by omega)
    rw [Divider.clocks, clock_atBit_succ kind d (by omega)]
    exact ih (by omega) _ (by omega)

/-- With all bits consumed, highest first, the divider is idle and holds the fold of its step over them (R100). -/
theorem clocks_done (kind : BitStep) (d : Byte) {n : Nat} (hn : n < 8) (r : Crc) :
    Divider.clocks (n + 1) (Divider.atBit kind d n r) =
      ⟨((List.range (n + 1)).reverse.map d.getLsbD).foldl kind.apply r, 7#3, d, kind, false⟩ := by
  induction n generalizing r with
  | zero => exact clock_atBit_zero kind d r
  | succ n ih =>
    rw [Divider.clocks, clock_atBit_succ kind d (by omega), ih (by omega), List.range_succ (n := n + 1),
      List.reverse_append, List.reverse_singleton, List.singleton_append, List.map_cons, List.foldl_cons]

/-! The bits consumed from bit 7, and from bit 6 of FINAL's zero datum, are those the commands fold over. -/

theorem clocks_startUpds (r : Crc) (d : Byte) : Divider.clocks 8 (.startUpds r d) = ⟨updsByte r d, 7#3, d, .s, false⟩ :=
  clocks_done .s d (n := 7) (by decide) r

theorem clocks_startUpdb (r : Crc) (d : Byte) : Divider.clocks 8 (.startUpdb r d) = ⟨updbByte r d, 7#3, d, .b, false⟩ :=
  clocks_done .b d (n := 7) (by decide) r

theorem clocks_startFinal (r : Crc) : Divider.clocks 7 (.startFinal r) = ⟨finalRounds r, 7#3, 0#8, .b, false⟩ :=
  clocks_done .b 0#8 (n := 6) (by decide) r

/-- Settles O58: UPDS and UPDB start the divider at bit 7 and FINAL at bit 6; it is busy until bit 0 is consumed. -/
theorem bitSerialDividerGivesTheSameValues : Obligations.BitSerialDividerGivesTheSameValues := by
  refine ⟨fun r d => ⟨?_, ?_, fun k hk => ⟨?_, ?_⟩⟩, fun r => ?_⟩
  · rw [clocks_startUpds]; exact ⟨rfl, rfl⟩
  · rw [clocks_startUpdb]; exact ⟨rfl, rfl⟩
  · exact clocks_busy .s d (n := 7) (by decide) r (Nat.le_of_lt_succ hk)
  · exact clocks_busy .b d (n := 7) (by decide) r (Nat.le_of_lt_succ hk)
  · rw [clocks_startFinal]
    exact ⟨rfl, rfl, fun k hk => clocks_busy .b 0#8 (n := 6) (by decide) r (Nat.le_of_lt_succ hk)⟩

end Sys2Proof.Machine
end
